-- ==== Sys2Proof/Word.lean ====
section
/-! DEFINITION. The two widths of the block: the 64-bit word of the slot memory and of the command port (R7, R70), and the
8-bit byte of the element buffer (R14). -/

namespace Sys2Proof

/-- A 64-bit word: a slot (R7), a command (R70) or a beat of a response (R76). -/
abbrev Word := BitVec 64

/-- A byte of an element (R14, D23). -/
abbrev Byte := BitVec 8

end Sys2Proof
end

