-- ==== Sys2Proof/Syntax.lean ====
section
/-! DEFINITION. The thirteen commands of R74 as an inductive type, one constructor per row of spec/opcode_table.json, each
operand at the width of its field (R71, R73); the bare opcodes, the six formats of R72 and the four fields of a command
word (R71). -/

namespace Sys2Proof

/-- A command with its operands (R74). Operands are unsigned field values used as they stand (R73), so their types are the
widths of the fields and every term is a command. -/
inductive Instr where
  /-- soft reset (R180) -/
  | rst
  /-- read register `r` (R181) -/
  | rdreg (r : BitVec 16)
  /-- construct a bare array of `n` bits (R101) -/
  | banew (n : BitVec 32)
  /-- read the bit at position `p` (R102) -/
  | bget (p : BitVec 32)
  /-- write the bit `v` at position `p` (R103) -/
  | bset (p : BitVec 32) (v : BitVec 1)
  /-- read all slots (R104) -/
  | btoint
  /-- read slot `s` (R105) -/
  | brdslot (s : BitVec 32)
  /-- construct a filter of `m` bits and `k` hash functions (R135) -/
  | bfnew (m : BitVec 32) (k : BitVec 16)
  /-- insert the current element (R136) -/
  | bfins
  /-- query the current element (R137) -/
  | bfqry
  /-- empty the element buffer (R165) -/
  | eclr
  /-- append byte `b` to the element (R166) -/
  | epush (b : Byte)
  /-- position of hash index `j` for the current element (R167) -/
  | hpos (j : BitVec 16)
  deriving DecidableEq, Repr

/-- The thirteen commands without their operands: the rows of R74. -/
inductive Opcode where
  | rst | rdreg | banew | bget | bset | btoint | brdslot | bfnew | bfins | bfqry | eclr | epush | hpos
  deriving DecidableEq, Repr

/-- The row of R74 a command belongs to. -/
def Instr.opcode : Instr → Opcode
  | .rst => .rst
  | .rdreg _ => .rdreg
  | .banew _ => .banew
  | .bget _ => .bget
  | .bset _ _ => .bset
  | .btoint => .btoint
  | .brdslot _ => .brdslot
  | .bfnew _ _ => .bfnew
  | .bfins => .bfins
  | .bfqry => .bfqry
  | .eclr => .eclr
  | .epush _ => .epush
  | .hpos _ => .hpos

/-- All thirteen rows of R74, in its order. -/
def Opcode.all : List Opcode :=
  [.rst, .rdreg, .banew, .bget, .bset, .btoint, .brdslot, .bfnew, .bfins, .bfqry, .eclr, .epush, .hpos]

/-- The six formats of R72. -/
inductive Format where
  | z | p | v | kp | a | y
  deriving DecidableEq, Repr

/-- The four fields of a command word (R71). -/
structure Fields where
  opc : BitVec 8
  a : BitVec 16
  b : BitVec 8
  p : BitVec 32
  deriving DecidableEq, Repr

end Sys2Proof
end

