-- ==== Sys2Proof/WellFormed.lean ====
section
/-! DEFINITION. Which 64-bit words are commands, by the `match` and `mask` columns of R74. This check is written from the
table alone; the decoder (Decode.lean) is written from the fields and formats of R71 and R72, and that the two agree is
stated as an obligation. An `Instr` needs no check of its own: the width of each operand is in its type. -/

namespace Sys2Proof

/-- The `match` column of R74. -/
def Opcode.matchBits : Opcode → Word
  | .rst => 0x0100000000000000#64
  | .rdreg => 0x0200000000000000#64
  | .banew => 0x1000000000000000#64
  | .bget => 0x1100000000000000#64
  | .bset => 0x1200000000000000#64
  | .btoint => 0x1300000000000000#64
  | .brdslot => 0x1400000000000000#64
  | .bfnew => 0x2000000000000000#64
  | .bfins => 0x2100000000000000#64
  | .bfqry => 0x2200000000000000#64
  | .eclr => 0x3000000000000000#64
  | .epush => 0x3100000000000000#64
  | .hpos => 0x3200000000000000#64

/-- The `mask` column of R74. -/
def Opcode.maskBits : Opcode → Word
  | .rst => 0xFFFFFFFFFFFFFFFF#64
  | .rdreg => 0xFF0000FFFFFFFFFF#64
  | .banew => 0xFFFFFFFF00000000#64
  | .bget => 0xFFFFFFFF00000000#64
  | .bset => 0xFFFFFFFE00000000#64
  | .btoint => 0xFFFFFFFFFFFFFFFF#64
  | .brdslot => 0xFFFFFFFF00000000#64
  | .bfnew => 0xFF0000FF00000000#64
  | .bfins => 0xFFFFFFFFFFFFFFFF#64
  | .bfqry => 0xFFFFFFFFFFFFFFFF#64
  | .eclr => 0xFFFFFFFFFFFFFFFF#64
  | .epush => 0xFFFFFF00FFFFFFFF#64
  | .hpos => 0xFF0000FFFFFFFFFF#64

/-- `w` is the command of row `o`: `W & mask = match` (R74). -/
def Opcode.selects (o : Opcode) (w : Word) : Bool := (w &&& o.maskBits) == o.matchBits

/-- `w` is a legal command word: some row of R74 selects it (R75 calls every other word illegal). -/
def legalWord (w : Word) : Bool := Opcode.all.any fun o => o.selects w

end Sys2Proof
end

