-- ==== Sys2Proof/Decode.lean ====
section
/-! DEFINITION. The decoder and the encoder. The decoder splits a word into the fields of R71, finds the opcode, checks
that the fields which the format leaves unused are zero (R72, R75) and assembles the operands (R73). It is total: a word is
one command or it is illegal, and then it says why (R75). -/

namespace Sys2Proof

/-- The opcode numbers of R74. -/
def Opcode.code : Opcode → BitVec 8
  | .rst => 0x01#8
  | .rdreg => 0x02#8
  | .banew => 0x10#8
  | .bget => 0x11#8
  | .bset => 0x12#8
  | .btoint => 0x13#8
  | .brdslot => 0x14#8
  | .bfnew => 0x20#8
  | .bfins => 0x21#8
  | .bfqry => 0x22#8
  | .eclr => 0x30#8
  | .epush => 0x31#8
  | .hpos => 0x32#8

/-- The opcode with number `c`; none for the other 243 values, `0x00` and `0xFF` among them (R75). -/
def Opcode.ofCode (c : BitVec 8) : Option Opcode := Opcode.all.find? fun o => o.code == c

/-- The format of each row of R74. -/
def Opcode.format : Opcode → Format
  | .rst => .z
  | .rdreg => .a
  | .banew => .p
  | .bget => .p
  | .bset => .v
  | .btoint => .z
  | .brdslot => .p
  | .bfnew => .kp
  | .bfins => .z
  | .bfqry => .z
  | .eclr => .z
  | .epush => .y
  | .hpos => .a

/-- The four fields of a word: `OPC = W[63:56]`, `A = W[55:40]`, `B = W[39:32]`, `P = W[31:0]` (R71). -/
def Fields.ofWord (w : Word) : Fields where
  opc := w.extractLsb' 56 8
  a := w.extractLsb' 40 16
  b := w.extractLsb' 32 8
  p := w.extractLsb' 0 32

/-- The word with the given fields (R71). -/
def Fields.toWord (x : Fields) : Word := x.opc ++ x.a ++ x.b ++ x.p

/-- The column "fields that must be zero" of R72; for format `V` that is `A` and `W[39:33]`. -/
def Format.unusedZero (f : Format) (x : Fields) : Bool :=
  match f with
  | .z => x.a == 0 && x.b == 0 && x.p == 0
  | .p => x.a == 0 && x.b == 0
  | .v => x.a == 0 && x.b.extractLsb' 1 7 == 0
  | .kp => x.b == 0
  | .a => x.b == 0 && x.p == 0
  | .y => x.a == 0 && x.p == 0

/-- Operand assembly (R73, the column "use" of R71). -/
def Opcode.assemble (o : Opcode) (x : Fields) : Instr :=
  match o with
  | .rst => .rst
  | .rdreg => .rdreg x.a
  | .banew => .banew x.p
  | .bget => .bget x.p
  | .bset => .bset x.p (x.b.extractLsb' 0 1)
  | .btoint => .btoint
  | .brdslot => .brdslot x.p
  | .bfnew => .bfnew x.p x.a
  | .bfins => .bfins
  | .bfqry => .bfqry
  | .eclr => .eclr
  | .epush => .epush x.b
  | .hpos => .hpos x.a

/-- Why a word is no command (R75). The block answers `IllegalCommand` to both. -/
inductive Illegal where
  /-- `OPC` is none of the thirteen values -/
  | unknownOpcode (opc : BitVec 8)
  /-- a field that the command's format leaves unused is not zero -/
  | unusedFieldNotZero (o : Opcode)
  deriving DecidableEq, Repr

/-- What a word decodes to (R75): exactly one command, or illegal. -/
inductive Decoded where
  | command (i : Instr)
  | illegal (why : Illegal)
  deriving DecidableEq, Repr

/-- The command that the fields of a word spell, if they spell one (R72 to R75). -/
def decodeFields (x : Fields) : Decoded :=
  match Opcode.ofCode x.opc with
  | none => .illegal (.unknownOpcode x.opc)
  | some o => if o.format.unusedZero x then .command (o.assemble x) else .illegal (.unusedFieldNotZero o)

/-- The decoder (R71 to R75). -/
def decode (w : Word) : Decoded := decodeFields (Fields.ofWord w)

/-- The fields a command is written with: its opcode number, its operands in their fields, zero elsewhere (R71, R72). -/
def Instr.fields (i : Instr) : Fields :=
  match i with
  | .rst | .btoint | .bfins | .bfqry | .eclr => ⟨i.opcode.code, 0, 0, 0⟩
  | .banew p | .bget p | .brdslot p => ⟨i.opcode.code, 0, 0, p⟩
  | .bset p v => ⟨i.opcode.code, 0, 0#7 ++ v, p⟩
  | .bfnew m k => ⟨i.opcode.code, k, 0, m⟩
  | .rdreg a | .hpos a => ⟨i.opcode.code, a, 0, 0⟩
  | .epush b => ⟨i.opcode.code, 0, b, 0⟩

/-- The word of a command (R71, R74). -/
def encode (i : Instr) : Word := i.fields.toWord

/-- What the decoder reads from a word given as spec/opcode_table.json numbers its bits. A command is one word of 64 bits
taken as a number (R70), so bit `n` of the table is bit `n` of the word (log 14). -/
def decodeTableWord (nbits w : Nat) : Option Instr :=
  match decode (BitVec.ofNat 64 (w % 2 ^ nbits)) with
  | .command i => some i
  | .illegal _ => none

end Sys2Proof
end

