-- ==== Sys2Proof/Config.lean ====
section
/-! DEFINITION. The five parameters that the spec leaves open (R8, R10, D7, D8, D12, D14): `NUM_SLOTS_MAX`, `K_MAX`,
`ELEM_MAX`, `DIGEST_BITS` and the function `DigestInt`. `Params` is what R8 says of them; `Config.block` is the one instance
that `exec` and `step` run with. Its values are opaque: nothing in Lean can evaluate them, so whatever is proved of the
machine is proved of every instance the spec allows (log 1). -/

namespace Sys2Proof

/-- The parameters of R8 with their constraints. `digest` is `DigestInt` of R161: a function of byte sequences, the empty
one among them, into `[0, 2^DIGEST_BITS)`, and nothing else is known of it. -/
structure Params where
  numSlotsMax : Nat
  kMax : Nat
  elemMax : Nat
  digestBits : Nat
  digest : List Byte → Nat
  numSlotsMax_range : 1 ≤ numSlotsMax ∧ numSlotsMax ≤ 2 ^ 26 - 1
  kMax_range : 1 ≤ kMax ∧ kMax ≤ 2 ^ 16 - 1
  elemMax_range : 1 ≤ elemMax ∧ elemMax ≤ 2 ^ 32 - 1
  digestBits_pos : 1 ≤ digestBits
  digest_lt : ∀ e, digest e < 2 ^ digestBits

/-- `M_MAX = 64 * NUM_SLOTS_MAX` (R8): the largest array that can be constructed. -/
def Params.mMax (c : Params) : Nat := 64 * c.numSlotsMax

/-- `NUM_SLOTS_MAX - 1`, one of the `2^26 - 1` values R8 allows (log 1). -/
opaque Config.numSlotsMaxPred : Fin 67108863

/-- `K_MAX - 1`, one of the `2^16 - 1` values R8 allows (log 1). -/
opaque Config.kMaxPred : Fin 65535

/-- `ELEM_MAX - 1`, one of the `2^32 - 1` values R8 allows (log 1). -/
opaque Config.elemMaxPred : Fin 4294967295

/-- `DIGEST_BITS - 1` (R8: `DIGEST_BITS >= 1`, log 1). -/
opaque Config.digestBitsPred : Nat

/-- `DigestInt` as a `DIGEST_BITS`-bit unsigned integer (R161, U1, log 1). -/
opaque Config.digest : List Byte → BitVec (Config.digestBitsPred + 1)

/-- The instance the machine runs with: the opaque constants above, with the ranges of R8 proved of them. -/
def Config.block : Params where
  numSlotsMax := Config.numSlotsMaxPred.val + 1
  kMax := Config.kMaxPred.val + 1
  elemMax := Config.elemMaxPred.val + 1
  digestBits := Config.digestBitsPred + 1
  digest := fun e => (Config.digest e).toNat
  numSlotsMax_range := by have := Config.numSlotsMaxPred.isLt; omega
  kMax_range := by have := Config.kMaxPred.isLt; omega
  elemMax_range := by have := Config.elemMaxPred.isLt; omega
  digestBits_pos := by omega
  digest_lt := fun e => (Config.digest e).isLt

end Sys2Proof
end

