-- ==== Sys2Proof/Machine/State.lean ====
section
/-! DEFINITION. The state of the block (10_state.md) as plain data, the responses it gives (R76), what the host holds beside
the block (R10, R21), the two types of stops that the interface asks for, and the state after reset (R34). -/

namespace Sys2Proof.Machine

/-- `MODE` (R23). The value 3 is never held (R32 (I7), U12), so it is no constructor (log 8). -/
inductive Mode where
  | unconf | array | filter
  deriving DecidableEq, Repr

/-- The seven errors of R190. Codes 8 to 15 are never produced (U12), so they are no constructors (log 8). -/
inductive Err where
  | invalidParameters | invalidSize | indexOutOfRange | illegalCommand | wrongMode | elementOverflow | badOperand
  deriving DecidableEq, Repr

/-- A response (R76): success with its data beats, or an error code, which comes with no data (R77). -/
inductive Response where
  | ok (data : List Word)
  | error (e : Err)
  deriving DecidableEq, Repr

/-- The slot memory (R31, R50): the words that are not zero, each with its slot index, indices rising. A slot is never
accessed in parts (R56), so the cell is the 64-bit word (log 5). -/
abbrev Memory := List (Nat × Word)

/-- The state of the block: what 10_state.md lists and nothing else (R10). NUM_SLOTS, ELEN, ERRFLAGS and the CAP registers are
views (Machine/Ops.lean, Machine/Operands.lean): R25 says NUM_SLOTS is not independent state, R30 lets the element be kept as
the list of its bytes, R28 hardwires bit 0 of ERRFLAGS, R29 hardwires the CAP registers. -/
structure Block where
  /-- `MODE` (R23) -/
  mode : Mode
  /-- `NUM_BITS` (R24) -/
  numBits : BitVec 32
  /-- `K` (R26) -/
  k : BitVec 16
  /-- `ELEM`, the bytes `EBUF[0] .. EBUF[ELEN-1]` (R30) -/
  elem : List Byte
  /-- `ERRFLAGS[7:1]` (R28) -/
  errRecord : BitVec 7
  /-- `SLOT` (R31) -/
  slots : Memory
  deriving DecidableEq, Repr

/-- What a command leaves: the block after it, and its one response (R76). -/
structure Result extends Block where
  response : Response
  deriving DecidableEq, Repr

/-- The block, and beside it what the host holds. R10 says that the command sequence is no state but a parameter of the step
function; the interface gives `step` no other argument than this type, so the sequence stands here, outside `Block`.
Every command is a function of the parameters of R8 and of the `Block` alone, and Machine/Sequence.lean is the step function
with the sequence as its parameter. -/
structure State extends Block where
  /-- the command words the host has still to present, the next one first (R10, R21, R70; log 2) -/
  commands : List Word
  /-- the responses the host has received, the first one first (R76, R233; log 3) -/
  responses : List Response
  deriving DecidableEq, Repr

/-- The block has no fault: an error is a response and the block carries on (R193, R194, R200), and every command completes
(R231). So nothing raises one and the type has no constructor (log 11). -/
inductive Fault where
  deriving DecidableEq, Repr

/-- The refusals. -/
inductive Refusal where
  /-- a command that `exec` gives no meaning to yet; raised by no arm of this model. Safe: a stop. -/
  | notModelled (mnemonic : String)
  deriving DecidableEq, Repr

/-- The block after a hardware reset (R34, R220): nothing constructed, empty element, no error recorded. -/
def Block.reset : Block where
  mode := .unconf
  numBits := 0
  k := 0
  elem := []
  errRecord := 0
  slots := []

/-- The block after a hardware reset, no command presented (log 2) and no response given (log 3). -/
def State.reset : State where
  toBlock := Block.reset
  commands := []
  responses := []

end Sys2Proof.Machine
end

