-- ==== Sys2Proof/Machine/Flags.lean ====
section
/-! DEFINITION. Codes and flags: the numbers of the modes (R23) and of the errors (R190), and `ERRFLAGS` (R28), the only
flag register there is. -/

namespace Sys2Proof.Machine

/-- The 2-bit value of `MODE` (R23). -/
def Mode.code : Mode → BitVec 2
  | .unconf => 0#2
  | .array => 1#2
  | .filter => 2#2

/-- The error codes of R190. -/
def Err.code : Err → BitVec 4
  | .invalidParameters => 1#4
  | .invalidSize => 2#4
  | .indexOutOfRange => 3#4
  | .illegalCommand => 4#4
  | .wrongMode => 5#4
  | .elementOverflow => 6#4
  | .badOperand => 7#4

/-- `ERRFLAGS` (R28): the recorded bits 7 to 1 over bit 0, which is hardwired to 0. -/
def Block.errflags (b : Block) : BitVec 8 := b.errRecord ++ 0#1

/-- `ERRFLAGS[code(e)] <- 1` (R193), on bits 7 to 1. -/
def recordError (r : BitVec 7) (e : Err) : BitVec 7 := r ||| (1#7 <<< (e.code.toNat - 1))

/-- `ERR` of a response (R76): 0 for success, else the error's code. -/
def Response.err : Response → BitVec 4
  | .ok _ => 0#4
  | .error e => e.code

/-- The data beats of a response (R77): none with an error. -/
def Response.data : Response → List Word
  | .ok ds => ds
  | .error _ => []

/-- The status beat (R76): `S[3:0] = ERR`, `S[31:4] = 0`, `S[63:32] = NDATA` (log 16). -/
def Response.statusBeat (r : Response) : Word := BitVec.ofNat 32 r.data.length ++ 0#28 ++ r.err

/-- The beats of a response in the order they are given (R76). -/
def Response.beats (r : Response) : List Word := r.statusBeat :: r.data

end Sys2Proof.Machine
end

