-- ==== Sys2Proof/Machine/Ops.lean ====
section
/-! DEFINITION. The shared operations: reading and writing a slot and a bit (R106), the views of the registers that have no
storage of their own, ending a command with a response or with an error (R13, R193), and taking the next command from the
port (R70). Taking an error is the block's only exception; there is no control transfer and no return from one (R197). -/

namespace Sys2Proof.Machine

/-- `MemRead(s, 8)` (R13): the word of slot `a`. A slot that is not listed holds 0: construction zeroes every word (R31). -/
def Memory.read : Memory → Nat → Word
  | [], _ => 0
  | (b, w) :: rest, a => if b = a then w else Memory.read rest a

/-- Lists a word at its place; `a` must not be listed yet. -/
def Memory.insert : Memory → Nat → Word → Memory
  | [], a, w => [(a, w)]
  | x :: rest, a, w => if a < x.1 then (a, w) :: x :: rest else x :: Memory.insert rest a w

/-- Takes slot `a` off the list. -/
def Memory.erase (m : Memory) (a : Nat) : Memory := m.filter fun x => x.1 != a

/-- `MemWrite(s, 8, v)` (R13): the whole word of slot `a` becomes `w`. Writing 0 takes the slot off the list. -/
def Memory.write (m : Memory) (a : Nat) (w : Word) : Memory :=
  if w = 0 then m.erase a else (m.erase a).insert a w

/-- The canonical form: slot indices strictly rising and no listed word zero, so that equal memories are equal lists. -/
abbrev Memory.wf (m : Memory) : Prop := m.Pairwise (fun x y => x.1 < y.1) ∧ ∀ x ∈ m, x.2 ≠ 0

/-- The slot memory right after construction: every word of the new array is 0 (R101, R135). Words beyond the array are
not state (R31). -/
def Memory.zeroed : Memory := []

/-- `slot(i) = i div 64` (R51). -/
def slotOf (i : Nat) : Nat := i / 64

/-- `off(i) = i mod 64` (R51). -/
def offOf (i : Nat) : Nat := i % 64

/-- `1 << o`, the 64-bit word with only bit `o` set (R12, R52, R106). -/
def bitMask (o : Nat) : Word := 1#64 <<< o

/-- `GetBit(i)` (R106). -/
def Memory.getBit (m : Memory) (i : Nat) : BitVec 1 := (m.read (slotOf i)).extractLsb' (offOf i) 1

/-- `SetBit(i, v)` (R106): a read-modify-write of one word. -/
def Memory.setBit (m : Memory) (i : Nat) (v : BitVec 1) : Memory :=
  let w := m.read (slotOf i)
  let mask := bitMask (offOf i)
  m.write (slotOf i) (if v = 1#1 then w ||| mask else w &&& ~~~mask)

/-- `NUM_SLOTS = (NUM_BITS + 63) div 64` (R25), computed without wrapping. -/
def Block.numSlots (b : Block) : Nat := (b.numBits.toNat + 63) / 64

/-- `ELEN` (R27): the number of valid bytes of the element buffer, as the 32-bit register. -/
def Block.elen (b : Block) : BitVec 32 := BitVec.ofNat 32 b.elem.length

/-- The words `SLOT[0] .. SLOT[NUM_SLOTS-1]` of the constructed array (R31). -/
def Block.slotWords (b : Block) : List Word := (List.range b.numSlots).map b.slots.read

/-- `ToInteger` (R54): the sum of `SLOT[s] * 2^(64*s)` over the slots of the array. -/
def Block.toInteger (b : Block) : Nat :=
  ((List.range b.numSlots).map fun a => (b.slots.read a).toNat * 2 ^ (64 * a)).sum

/-- `respond(d0, d1, ...)` (R13, R76): the command ends with success and the listed data beats. -/
def Block.respond (b : Block) (ds : List Word) : Result := { b with response := .ok ds }

/-- `raise E` (R193): nothing changes but `ERRFLAGS[code(E)]`, and the response carries the code and no data. -/
def Block.raise (b : Block) (e : Err) : Result :=
  { b with errRecord := recordError b.errRecord e, response := .error e }

/-- A word that matches no row of the opcode map (R75): `IllegalCommand`, whatever the reason and the mode (R195). -/
def illegal (_ : Illegal) (b : Block) : Result := b.raise .illegalCommand

/-- A command has ended: the block is as the command left it, and the host has its response (R76). -/
def State.after (s : State) (r : Result) : State := { s with toBlock := r.toBlock, responses := s.responses ++ [r.response] }

/-- The command at the port, if the host presents one, and the state in which it runs (R70, R79; log 2). -/
def State.fetch (s : State) : Option (Word × State) :=
  match s.commands with
  | [] => none
  | w :: rest => some (w, { s with commands := rest })

/-- Between commands the block is idle and holds its state (R196, R206; log 4). -/
def idle (s : State) : State := s

/-- The state with `w` at the command port in the place of whatever the host had there (log 14). -/
def State.present (s : State) (w : Word) : State := { s with commands := w :: s.commands.tail }

end Sys2Proof.Machine
end

