-- ==== Sys2Proof/Machine/Operands.lean ====
section
/-! DEFINITION. The operands that are not fields of the command word: the current element and the hash positions derived
from it (R160 to R169), and the register that `RDREG` names (R22, R181). -/

namespace Sys2Proof.Machine

/-- `rep(e, n)` (R14): `e` concatenated with itself, `n` times in all. -/
def rep (e : List Byte) : Nat → List Byte
  | 0 => []
  | n + 1 => rep e n ++ e

/-- `HashJ(j, e) = DigestInt(rep(e, j + 1))` (R162; the reading of C5 and D13, log 12). -/
def hashJ (c : Params) (j : Nat) (e : List Byte) : Nat := c.digest (rep e (j + 1))

/-- `Pos(j, e, m) = HashJ(j, e) mod m` (R163). -/
def pos (c : Params) (j : Nat) (e : List Byte) (m : Nat) : Nat := hashJ c j e % m

/-- `Pos(j, ELEM, NUM_BITS)`: the position every command uses (R163, R169). -/
def Block.posOf (c : Params) (b : Block) (j : Nat) : Nat := pos c j b.elem b.numBits.toNat

/-- The value of register `r`, zero-extended to 64 bits (R22, R181); none where `r` names no register. -/
def Block.readReg (c : Params) (b : Block) (r : BitVec 16) : Option Word :=
  match r.toNat with
  | 0 => some (b.mode.code.setWidth 64)
  | 1 => some (b.numBits.setWidth 64)
  | 2 => some (BitVec.ofNat 64 b.numSlots)
  | 3 => some (b.k.setWidth 64)
  | 4 => some (b.elen.setWidth 64)
  | 5 => some (b.errflags.setWidth 64)
  | 8 => some (BitVec.ofNat 64 c.numSlotsMax)
  | 9 => some (BitVec.ofNat 64 c.kMax)
  | 10 => some (BitVec.ofNat 64 c.elemMax)
  | 11 => some (BitVec.ofNat 64 (min c.digestBits (2 ^ 32 - 1)))
  | _ => none

end Sys2Proof.Machine
end

