-- ==== Sys2Proof/Machine/BitArray.lean ====
section
/-! DEFINITION. The packed bit-array commands BANEW, BGET, BSET, BTOINT and BRDSLOT (40_bitarray.md). Checks stand in the
order of R195: mode, then operands. -/

namespace Sys2Proof.Machine

/-- `BANEW n` (R101). Accepted in every mode; the element buffer is not touched. -/
def banew (c : Params) (n : BitVec 32) (b : Block) : Result :=
  if n = 0 then b.raise .invalidSize
  else if c.mMax < n.toNat then b.raise .invalidSize
  else Block.respond { b with mode := .array, numBits := n, k := 0, slots := Memory.zeroed } []

/-- `BGET p` (R102). The bound is `NUM_BITS`, not the size of the slots: a padding position is out of range (C1). -/
def bget (p : BitVec 32) (b : Block) : Result :=
  if b.mode = .unconf then b.raise .wrongMode
  else if b.numBits ≤ p then b.raise .indexOutOfRange
  else b.respond [(b.slots.getBit p.toNat).setWidth 64]

/-- `BSET p, v` (R103). Only in `ARRAY` mode: a filter owns its array (C6). -/
def bset (p : BitVec 32) (v : BitVec 1) (b : Block) : Result :=
  if b.mode ≠ .array then b.raise .wrongMode
  else if b.numBits ≤ p then b.raise .indexOutOfRange
  else Block.respond { b with slots := b.slots.setBit p.toNat v } []

/-- `BTOINT` (R104): the slots as data beats, slot 0 first (C8). -/
def btoint (b : Block) : Result :=
  if b.mode = .unconf then b.raise .wrongMode
  else b.respond b.slotWords

/-- `BRDSLOT a` (R105). -/
def brdslot (a : BitVec 32) (b : Block) : Result :=
  if b.mode = .unconf then b.raise .wrongMode
  else if b.numSlots ≤ a.toNat then b.raise .indexOutOfRange
  else b.respond [b.slots.read a.toNat]

def execBanew (n : BitVec 32) (s : State) : Host.Outcome State Fault Refusal :=
  .next (s.after (banew Config.block n s.toBlock))

def execBget (p : BitVec 32) (s : State) : Host.Outcome State Fault Refusal := .next (s.after (bget p s.toBlock))

def execBset (p : BitVec 32) (v : BitVec 1) (s : State) : Host.Outcome State Fault Refusal :=
  .next (s.after (bset p v s.toBlock))

def execBtoint (s : State) : Host.Outcome State Fault Refusal := .next (s.after (btoint s.toBlock))

def execBrdslot (a : BitVec 32) (s : State) : Host.Outcome State Fault Refusal :=
  .next (s.after (brdslot a s.toBlock))

end Sys2Proof.Machine
end

