-- ==== Sys2Proof/Machine/Bloom.lean ====
section
/-! DEFINITION. The Bloom filter commands BFNEW, BFINS and BFQRY (41_bloom_filter.md). -/

namespace Sys2Proof.Machine

/-- `BFNEW m, k` (R135). The parameter check on `k` comes before the size check on `m` (R195). -/
def bfnew (c : Params) (m : BitVec 32) (k : BitVec 16) (b : Block) : Result :=
  if k = 0 ∨ c.kMax < k.toNat then b.raise .invalidParameters
  else if m = 0 ∨ c.mMax < m.toNat then b.raise .invalidSize
  else Block.respond { b with mode := .filter, numBits := m, k := k, slots := Memory.zeroed } []

/-- The loop of `BFINS` (R136) over the hash indices `js`: `SetBit(Pos(j, ELEM, NUM_BITS), 1)` for each. -/
def setPositions (c : Params) (b : Block) (js : List Nat) : Memory :=
  js.foldl (fun m j => m.setBit (b.posOf c j) 1#1) b.slots

/-- `BFINS` (R136). The element stays loaded. -/
def bfins (c : Params) (b : Block) : Result :=
  if b.mode ≠ .filter then b.raise .wrongMode
  else Block.respond { b with slots := setPositions c b (List.range b.k.toNat) } []

/-- The loop of `BFQRY` (R137) over the hash indices `js`: the AND of the bits at `Pos(j, ELEM, NUM_BITS)`. -/
def andPositions (c : Params) (b : Block) (js : List Nat) : BitVec 1 :=
  js.foldl (fun r j => r &&& b.slots.getBit (b.posOf c j)) 1#1

/-- `BFQRY` (R137). -/
def bfqry (c : Params) (b : Block) : Result :=
  if b.mode ≠ .filter then b.raise .wrongMode
  else b.respond [(andPositions c b (List.range b.k.toNat)).setWidth 64]

def execBfnew (m : BitVec 32) (k : BitVec 16) (s : State) : Host.Outcome State Fault Refusal :=
  .next (s.after (bfnew Config.block m k s.toBlock))

def execBfins (s : State) : Host.Outcome State Fault Refusal := .next (s.after (bfins Config.block s.toBlock))

def execBfqry (s : State) : Host.Outcome State Fault Refusal := .next (s.after (bfqry Config.block s.toBlock))

end Sys2Proof.Machine
end

