-- ==== Sys2Proof/Machine/HashPosition.lean ====
section
/-! DEFINITION. The element buffer commands ECLR and EPUSH and the hash-position read HPOS (42_hash_position.md). -/

namespace Sys2Proof.Machine

/-- `ECLR` (R165). -/
def eclr (b : Block) : Result := Block.respond { b with elem := [] } []

/-- `EPUSH x` (R166). -/
def epush (c : Params) (x : Byte) (b : Block) : Result :=
  if b.elem.length = c.elemMax then b.raise .elementOverflow
  else Block.respond { b with elem := b.elem ++ [x] } []

/-- `HPOS j` (R167). -/
def hpos (c : Params) (j : BitVec 16) (b : Block) : Result :=
  if b.mode ≠ .filter then b.raise .wrongMode
  else if b.k ≤ j then b.raise .badOperand
  else b.respond [BitVec.ofNat 64 (b.posOf c j.toNat)]

def execEclr (s : State) : Host.Outcome State Fault Refusal := .next (s.after (eclr s.toBlock))

def execEpush (x : Byte) (s : State) : Host.Outcome State Fault Refusal :=
  .next (s.after (epush Config.block x s.toBlock))

def execHpos (j : BitVec 16) (s : State) : Host.Outcome State Fault Refusal :=
  .next (s.after (hpos Config.block j s.toBlock))

end Sys2Proof.Machine
end

