-- ==== Sys2Proof/Machine/System.lean ====
section
/-! DEFINITION. The system commands RST and RDREG (43_system.md). Each command of the model is a function of the parameters
of R8 and of the block's state (R10), and its `exec` form is that function at the parameters of this block. -/

namespace Sys2Proof.Machine

/-- `RST` (R180): the state after a hardware reset (R34), whatever it was before. -/
def rst (_ : Block) : Result := Block.reset.respond []

/-- `RDREG r` (R181). -/
def rdreg (c : Params) (r : BitVec 16) (b : Block) : Result :=
  match b.readReg c r with
  | some v => b.respond [v]
  | none => b.raise .badOperand

def execRst (s : State) : Host.Outcome State Fault Refusal := .next (s.after (rst s.toBlock))

def execRdreg (r : BitVec 16) (s : State) : Host.Outcome State Fault Refusal :=
  .next (s.after (rdreg Config.block r s.toBlock))

end Sys2Proof.Machine
end

