-- ==== Sys2Proof/Machine/Dispatch.lean ====
section
/-! DEFINITION. One arm per command of R74. -/

namespace Sys2Proof.Machine

def exec (i : Instr) (s : State) : Host.Outcome State Fault Refusal :=
  match i with
  | .rst => Sys2Proof.Machine.execRst s
  | .rdreg r => Sys2Proof.Machine.execRdreg r s
  | .banew n => Sys2Proof.Machine.execBanew n s
  | .bget p => Sys2Proof.Machine.execBget p s
  | .bset p v => Sys2Proof.Machine.execBset p v s
  | .btoint => Sys2Proof.Machine.execBtoint s
  | .brdslot a => Sys2Proof.Machine.execBrdslot a s
  | .bfnew m k => Sys2Proof.Machine.execBfnew m k s
  | .bfins => Sys2Proof.Machine.execBfins s
  | .bfqry => Sys2Proof.Machine.execBfqry s
  | .eclr => Sys2Proof.Machine.execEclr s
  | .epush b => Sys2Proof.Machine.execEpush b s
  | .hpos j => Sys2Proof.Machine.execHpos j s

end Sys2Proof.Machine
end

