-- ==== Sys2Proof/Machine/Step.lean ====
section
/-! DEFINITION. One step of the block: take the command at the port, decode it, run it to completion (R9, R70). The block
fetches no instructions (R21): its next command is whatever the host presents. -/

namespace Sys2Proof.Machine

/-- One command, or idling when none is presented (log 4). -/
def step (s : State) : Host.Outcome State Fault Refusal :=
  match s.fetch with
  | none => .next (idle s)
  | some (w, s') =>
    match decode w with
    | .command i => exec i s'
    | .illegal why => .next (s'.after (illegal why s'.toBlock))

/-- `s` with the word `w`, its bits numbered as spec/opcode_table.json numbers them, at the command port (log 14). -/
def State.withFetchWord (s : State) (nbits w : Nat) : State := s.present (BitVec.ofNat 64 (w % 2 ^ nbits))

end Sys2Proof.Machine
end

