-- ==== Sys2Proof/Machine/Assembly.lean ====
section
/-! DEFINITION. The assembler's side of the spec: the pseudo-instructions of R81 with their expansions, and one line of the
syntax of R80. The block never sees either (log 15). -/

namespace Sys2Proof

/-- The five pseudo-instructions (R81). A text is the list of its characters. -/
inductive Pseudo where
  | bclr (p : BitVec 32)
  | eload (text : List Char)
  | eloadb (bytes : List Byte)
  | insert (text : List Char)
  | contains (text : List Char)
  deriving DecidableEq, Repr

/-- The ASCII code of a character (R80, R81, G4). -/
def asciiByte (ch : Char) : Byte := BitVec.ofNat 8 ch.toNat

/-- Every character is an ASCII character, as R81 asks of a text (log 15). -/
def asciiText (text : List Char) : Bool := text.all fun ch => ch.toNat < 128

/-- `ELOADB` (R81): `ECLR`, then one `EPUSH` per byte. -/
def loadBytes (bytes : List Byte) : List Instr := .eclr :: bytes.map .epush

/-- The expansions of R81. -/
def Pseudo.expand : Pseudo → List Instr
  | .bclr p => [.bset p 0#1]
  | .eload text => loadBytes (text.map asciiByte)
  | .eloadb bytes => loadBytes bytes
  | .insert text => loadBytes (text.map asciiByte) ++ [.bfins]
  | .contains text => loadBytes (text.map asciiByte) ++ [.bfqry]

/-- A piece of an assembly line: a mnemonic or a number, a quoted character, a quoted text, a comma. -/
inductive Token where
  | word (cs : List Char)
  | char (ch : Char)
  | text (cs : List Char)
  | comma
  deriving DecidableEq, Repr

/-- Closes the word collected so far (kept in reverse). -/
def flushWord (acc : List Char) (rest : List Token) : List Token :=
  if acc.isEmpty then rest else .word acc.reverse :: rest

/-- Cuts a line into tokens; `quoted` holds the text being read (in reverse), `acc` the word. `;` outside quotes starts a
comment (R80). Code 34 is the double quote, 39 the single quote. -/
def tokens (quoted : Option (List Char)) (acc : List Char) : List Char → Option (List Token)
  | [] => if quoted.isNone then some (flushWord acc []) else none
  | ch :: cs =>
    match quoted with
    | some text =>
      if ch.toNat = 34 then (tokens none [] cs).map (.text text.reverse :: ·) else tokens (some (ch :: text)) [] cs
    | none =>
      if ch = ';' then some (flushWord acc [])
      else if ch.toNat = 34 then (tokens (some []) [] cs).map (flushWord acc)
      else if ch.toNat = 39 then
        match cs with
        | x :: y :: rest => if y.toNat = 39 then (tokens none [] rest).map (flushWord acc <| .char x :: ·) else none
        | _ => none
      else if ch = ',' then (tokens none [] cs).map (flushWord acc <| .comma :: ·)
      else if ch = ' ' ∨ ch.toNat = 9 then (tokens none [] cs).map (flushWord acc)
      else tokens none (ch :: acc) cs

/-- The value of a digit in the given base, decimal or hexadecimal. -/
def digitValue (base : Nat) (ch : Char) : Option Nat :=
  let n := ch.toNat
  let v := if 48 ≤ n ∧ n ≤ 57 then n - 48 else if 97 ≤ n ∧ n ≤ 102 then n - 87 else if 65 ≤ n ∧ n ≤ 70 then n - 55 else 16
  if v < base then some v else none

/-- The number a list of digits spells. -/
def digitsValue (base : Nat) (cs : List Char) : Option Nat :=
  if cs.isEmpty then none
  else cs.foldl (fun acc ch => acc.bind fun n => (digitValue base ch).map fun d => n * base + d) (some 0)

/-- A number in decimal, or in hexadecimal with `0x` (R80). -/
def numberValue : List Char → Option Nat
  | '0' :: 'x' :: cs => digitsValue 16 cs
  | cs => digitsValue 10 cs

/-- An operand that must fit `w` bits (R73). -/
def numberOperand (w : Nat) (t : Token) : Option (BitVec w) :=
  match t with
  | .word cs => (numberValue cs).bind fun n => if n < 2 ^ w then some (BitVec.ofNat w n) else none
  | _ => none

/-- The byte of `EPUSH`: a number, or one ASCII character in single quotes (R80). -/
def byteOperand (t : Token) : Option Byte :=
  match t with
  | .char ch => if ch.toNat < 128 then some (asciiByte ch) else none
  | t => numberOperand 8 t

/-- Operands separated by commas. -/
def operandList : List Token → Option (List Token)
  | [] => some []
  | [t] => if t = .comma then none else some [t]
  | t :: .comma :: u :: rest => if t = .comma then none else (operandList (u :: rest)).map (t :: ·)
  | _ => none

/-- The mnemonics in capitals (R80), as the opcode table spells them. -/
def Opcode.mnemonic : Opcode → List Char
  | .rst => ['R', 'S', 'T']
  | .rdreg => ['R', 'D', 'R', 'E', 'G']
  | .banew => ['B', 'A', 'N', 'E', 'W']
  | .bget => ['B', 'G', 'E', 'T']
  | .bset => ['B', 'S', 'E', 'T']
  | .btoint => ['B', 'T', 'O', 'I', 'N', 'T']
  | .brdslot => ['B', 'R', 'D', 'S', 'L', 'O', 'T']
  | .bfnew => ['B', 'F', 'N', 'E', 'W']
  | .bfins => ['B', 'F', 'I', 'N', 'S']
  | .bfqry => ['B', 'F', 'Q', 'R', 'Y']
  | .eclr => ['E', 'C', 'L', 'R']
  | .epush => ['E', 'P', 'U', 'S', 'H']
  | .hpos => ['H', 'P', 'O', 'S']

/-- The command with opcode `o` and the given operands, in the order of R74. -/
def Opcode.withOperands (o : Opcode) (ts : List Token) : Option Instr :=
  match o, ts with
  | .rst, [] => some .rst
  | .rdreg, [r] => (numberOperand 16 r).map .rdreg
  | .banew, [n] => (numberOperand 32 n).map .banew
  | .bget, [p] => (numberOperand 32 p).map .bget
  | .bset, [p, v] => (numberOperand 32 p).bind fun p => (numberOperand 1 v).map (.bset p)
  | .btoint, [] => some .btoint
  | .brdslot, [a] => (numberOperand 32 a).map .brdslot
  | .bfnew, [m, k] => (numberOperand 32 m).bind fun m => (numberOperand 16 k).map (.bfnew m)
  | .bfins, [] => some .bfins
  | .bfqry, [] => some .bfqry
  | .eclr, [] => some .eclr
  | .epush, [b] => (byteOperand b).map .epush
  | .hpos, [j] => (numberOperand 16 j).map .hpos
  | _, _ => none

/-- The pseudo-instruction with the given name and operands (R81). -/
def pseudoOf (name : List Char) (ts : List Token) : Option Pseudo :=
  if name = ['B', 'C', 'L', 'R'] then
    match ts with
    | [p] => (numberOperand 32 p).map .bclr
    | _ => none
  else if name = ['E', 'L', 'O', 'A', 'D', 'B'] then (ts.mapM byteOperand).map .eloadb
  else
    match ts with
    | [.text cs] =>
      if !asciiText cs then none
      else if name = ['E', 'L', 'O', 'A', 'D'] then some (.eload cs)
      else if name = ['I', 'N', 'S', 'E', 'R', 'T'] then some (.insert cs)
      else if name = ['C', 'O', 'N', 'T', 'A', 'I', 'N', 'S'] then some (.contains cs)
      else none
    | _ => none

/-- The commands one line stands for (R80, R81); none for a line the syntax does not have. A blank line or a comment stands
for no command. -/
def assembleLine (line : List Char) : Option (List Instr) :=
  match tokens none [] line with
  | some [] => some []
  | some (.word name :: rest) =>
    match operandList rest with
    | none => none
    | some ts =>
      match Opcode.all.find? fun o => o.mnemonic == name with
      | some o => (o.withOperands ts).map fun i => [i]
      | none => (pseudoOf name ts).map Pseudo.expand
  | _ => none

end Sys2Proof
end

