-- ==== Sys2Proof/Machine/Engine.lean ====
section
/-! DEFINITION. The membership engine as R138 draws it: `K_MAX` lanes and a tree of two-input ANDs, and the evaluation that
stops at the first 0. R138 says that it adds no behaviour to `BFQRY`; `exec` does not use this file, and that the picture and
the loop of R137 agree is an obligation (log 17). -/

namespace Sys2Proof.Machine

/-- The output of lane `j` (R138): the bit at its position, or the constant 1 where `j >= K` disables it. -/
def laneOutput (c : Params) (b : Block) (j : Nat) : BitVec 1 :=
  if j < b.k.toNat then b.slots.getBit (b.posOf c j) else 1#1

/-- A tree of two-input ANDs over lanes (R138: its shape does not matter). -/
inductive AndTree where
  | lane (j : Nat)
  | both (l r : AndTree)
  deriving DecidableEq, Repr

/-- The lanes of a tree, left to right. -/
def AndTree.lanes : AndTree → List Nat
  | .lane j => [j]
  | .both l r => l.lanes ++ r.lanes

/-- The output of a tree. -/
def AndTree.output (c : Params) (b : Block) : AndTree → BitVec 1
  | .lane j => laneOutput c b j
  | .both l r => l.output c b &&& r.output c b

/-- The evaluation that stops at the first 0 bit (R138). -/
def stopAtZero (c : Params) (b : Block) : List Nat → BitVec 1
  | [] => 1#1
  | j :: js => if b.slots.getBit (b.posOf c j) = 0#1 then 0#1 else stopAtZero c b js

end Sys2Proof.Machine
end

