-- ==== Sys2Proof/Machine/Sequence.lean ====
section
/-! DEFINITION. The step function as R10 gives it: the parameters of R8 and the commands the host issues are its parameters,
and the state of the block is all its state. The machine's `step` is this function at the parameters of this block and at the
words the host presents, which is an obligation (log 2). -/

namespace Sys2Proof.Machine

/-- One command. -/
def runCommand (c : Params) (i : Instr) (b : Block) : Result :=
  match i with
  | .rst => rst b
  | .rdreg r => rdreg c r b
  | .banew n => banew c n b
  | .bget p => bget p b
  | .bset p v => bset p v b
  | .btoint => btoint b
  | .brdslot a => brdslot a b
  | .bfnew m k => bfnew c m k b
  | .bfins => bfins c b
  | .bfqry => bfqry c b
  | .eclr => eclr b
  | .epush x => epush c x b
  | .hpos j => hpos c j b

/-- One command word, legal or not (R70, R75, R76). -/
def runWord (c : Params) (w : Word) (b : Block) : Result :=
  match decode w with
  | .command i => runCommand c i b
  | .illegal why => illegal why b

/-- A sequence of command words, in the order issued (R9, R79): the block at its end and the responses (R233). -/
def runWords (c : Params) : List Word → Block → Block × List Response
  | [], b => (b, [])
  | w :: ws, b =>
    let r := runWord c w b
    let rest := runWords c ws r.toBlock
    (rest.1, r.response :: rest.2)

end Sys2Proof.Machine
end

