-- ==== Sys2Proof/Machine/Sizing.lean ====
section
/-! DEFINITION. The host's duties before construction (R130 to R133, R224, R225): the sizing formulas over the real numbers
and the check of `capacity` and `error_rate`. The block does not compute these (D9) and no command uses this file; over the
reals it cannot be evaluated, as U9 allows (log 13). -/

namespace Sys2Proof.Sizing

/-- `m = ceil( -(capacity * ln(error_rate)) / (ln 2)^2 )` (R130). -/
noncomputable def computeM (capacity : ℕ) (errorRate : ℝ) : ℕ :=
  ⌈-(capacity * Real.log errorRate) / Real.log 2 ^ 2⌉₊

/-- `k = ceil( (m / capacity) * ln 2 )`, with the integer `m` of R130 and a real quotient (R131). -/
noncomputable def computeK (capacity m : ℕ) : ℕ := ⌈(m : ℝ) / capacity * Real.log 2⌉₊

/-- `capacity >= 1` and `0 < error_rate < 1` (R133, R224). -/
def ValidParameters (capacity : ℤ) (errorRate : ℝ) : Prop := 1 ≤ capacity ∧ 0 < errorRate ∧ errorRate < 1

/-- What the host does with `new(capacity, error_rate)`. -/
inductive HostNew where
  /-- it fails with `InvalidParameters` and issues nothing (R224) -/
  | invalidParameters
  /-- `m` or `k` does not fit the command's field, so it exceeds `M_MAX` or `K_MAX` of every instance (R8), and no smaller
  value may take its place (R225) -/
  | tooLarge
  /-- it issues this command (R225) -/
  | issue (i : Instr)

open Classical in
/-- The host's `new(capacity, error_rate)` (R133, R224, R225). -/
noncomputable def hostNew (capacity : ℤ) (errorRate : ℝ) : HostNew :=
  if ValidParameters capacity errorRate then
    let m := computeM capacity.toNat errorRate
    let k := computeK capacity.toNat m
    if m < 2 ^ 32 ∧ k < 2 ^ 16 then .issue (.bfnew (BitVec.ofNat 32 m) (BitVec.ofNat 16 k)) else .tooLarge
  else .invalidParameters

end Sys2Proof.Sizing
end

