-- ==== Sys2Proof/Safety.lean ====
section
/-! DEFINITION. The terms in which the obligations speak of the machine: what a command answers and what it leaves alone,
which mode accepts it, runs of several commands, and the invariants of R32. Nothing here is used by `step`. -/

namespace Sys2Proof.Safety
open Sys2Proof.Machine

/-- The command completes, gives the data `ds` and changes nothing: not a register, not a slot, not the element. -/
def Answers (i : Instr) (s : State) (ds : List Word) : Prop :=
  exec i s = .next { s with responses := s.responses ++ [.ok ds] }

/-- From `s` to `t` nothing changed but `ERRFLAGS[code(e)]`, which is set, and the response is `e` with no data (R193). -/
structure OnlyRaised (s t : State) (e : Err) : Prop where
  mode : t.mode = s.mode
  numBits : t.numBits = s.numBits
  k : t.k = s.k
  elem : t.elem = s.elem
  slots : t.slots = s.slots
  commands : t.commands = s.commands
  errflags : t.errflags = s.errflags ||| (1#8 <<< e.code.toNat)
  responses : t.responses = s.responses ++ [.error e]

/-- The command raises `e` (R193). -/
def Raises (i : Instr) (s : State) (e : Err) : Prop := ∃ t, exec i s = .next t ∧ OnlyRaised s t e

/-- `MODE`, `NUM_BITS`, `K` and `ERRFLAGS` are unchanged, and what the host has still to present. -/
structure SameRegisters (s t : State) : Prop where
  mode : t.mode = s.mode
  numBits : t.numBits = s.numBits
  k : t.k = s.k
  errflags : t.errflags = s.errflags
  commands : t.commands = s.commands

/-- Every slot reads as before. -/
def SameSlots (s t : State) : Prop := ∀ a, t.slots.read a = s.slots.read a

/-- The command succeeded with the data `ds`. -/
def Succeeded (s t : State) (ds : List Word) : Prop := t.responses = s.responses ++ [.ok ds]

/-- The command failed with the error `e`. -/
def Failed (s t : State) (e : Err) : Prop := t.responses = s.responses ++ [.error e]

/-- The reset state of R34, register by register; the contents of the memories are unobservable, so there are no slots and
the element is empty. -/
structure IsResetState (t : State) : Prop where
  mode : t.mode = .unconf
  numBits : t.numBits = 0
  numSlots : t.numSlots = 0
  k : t.k = 0
  elen : t.elen = 0
  errflags : t.errflags = 0
  slotWords : t.slotWords = []
  elem : t.elem = []
  capSlots : t.readReg Config.block 8 = some (BitVec.ofNat 64 Config.block.numSlotsMax)
  capK : t.readReg Config.block 9 = some (BitVec.ofNat 64 Config.block.kMax)
  capElem : t.readReg Config.block 10 = some (BitVec.ofNat 64 Config.block.elemMax)
  capDigest : t.readReg Config.block 11 = some (BitVec.ofNat 64 (min Config.block.digestBits (2 ^ 32 - 1)))

/-- Which command is accepted in which mode: the table of R199. -/
def accepted : Opcode → Mode → Bool
  | .rst, _ | .rdreg, _ | .banew, _ | .bfnew, _ | .eclr, _ | .epush, _ => true
  | .bget, .unconf | .btoint, .unconf | .brdslot, .unconf => false
  | .bget, _ | .btoint, _ | .brdslot, _ => true
  | .bset, .array => true
  | .bset, _ => false
  | .bfins, .filter | .bfqry, .filter | .hpos, .filter => true
  | .bfins, _ | .bfqry, _ | .hpos, _ => false

/-- How many data beats a successful response has: the column `NDATA` of R77. -/
def ndata : Opcode → Block → Nat
  | .rst, _ | .banew, _ | .bset, _ | .bfnew, _ | .bfins, _ | .eclr, _ | .epush, _ => 0
  | .rdreg, _ | .bget, _ | .brdslot, _ | .bfqry, _ | .hpos, _ => 1
  | .btoint, b => b.numSlots

/-- The commands that, when they succeed, end an array or a filter: `BANEW`, `BFNEW`, `RST` (R112, R139). -/
def rebuilds : Opcode → Bool
  | .banew | .bfnew | .rst => true
  | _ => false

/-- The commands run one after the other (R61, R79). -/
def runList : List Instr → State → Host.Outcome State Fault Refusal
  | [], s => .next s
  | i :: rest, s =>
    match exec i s with
    | .next t => runList rest t
    | .fault r => .fault r
    | .refused r => .refused r

/-- The value last written to position `p` by a list of writes, or 0 if there is none (R108). -/
def lastWrite (writes : List (BitVec 32 × BitVec 1)) (p : BitVec 32) : BitVec 1 :=
  writes.foldl (fun v w => if w.1 = p then w.2 else v) 0#1

/-- The elements inserted one after the other, each loaded and then inserted by `BFINS`. -/
def insertAll : List (List Byte) → State → Host.Outcome State Fault Refusal
  | [], s => .next s
  | e :: rest, s =>
    match exec .bfins { s with elem := e } with
    | .next t => insertAll rest t
    | .fault r => .fault r
    | .refused r => .refused r

/-- From `s` any commands led to `t`, with no successful `BANEW` or `BFNEW` and no `RST` among them (R139, R141). -/
inductive NoRebuild : State → State → Prop
  | refl (s : State) : NoRebuild s s
  | step {s t u : State} (i : Instr) (before : NoRebuild s t) (run : exec i t = .next u)
      (kept : rebuilds i.opcode = true → ∃ e, Failed t u e) : NoRebuild s u

/-- The invariants (I1) to (I7) of R32. -/
structure StateInv (c : Params) (s : State) : Prop where
  /-- (I1) -/
  unconf : s.mode = .unconf → s.numBits = 0 ∧ s.k = 0
  /-- (I2) -/
  array : s.mode = .array → 1 ≤ s.numBits.toNat ∧ s.numBits.toNat ≤ c.mMax ∧ s.k = 0
  /-- (I3) -/
  filter : s.mode = .filter →
    1 ≤ s.numBits.toNat ∧ s.numBits.toNat ≤ c.mMax ∧ 1 ≤ s.k.toNat ∧ s.k.toNat ≤ c.kMax
  /-- (I4), of the register as `RDREG 2` reads it -/
  numSlots : s.readReg c 2 = some (BitVec.ofNat 64 ((s.numBits.toNat + 63) / 64))
  /-- (I5): bits `[63:r]` of the last slot, `r = NUM_BITS mod 64`, are 0 -/
  padding : s.numBits.toNat % 64 ≠ 0 →
    ∀ o, s.numBits.toNat % 64 ≤ o → o < 64 → (s.slots.read (s.numSlots - 1)).getLsbD o = false
  /-- (I6) -/
  elem : s.elem.length ≤ c.elemMax
  /-- (I7) -/
  errflagsZero : s.errflags.getLsbD 0 = false
  /-- (I7) -/
  modeNot3 : s.mode.code ≠ 3#2

/-- The model's own invariant of its slot memory (log 5): the canonical form, and nothing listed beyond the array. -/
structure Canonical (s : State) : Prop where
  wf : s.slots.wf
  inArray : ∀ x ∈ s.slots, x.1 < s.numSlots

/-- From `s` the block ran, step after step, to `t`, and none of the commands it took was `RST` (R233). -/
inductive RunWithoutRst : State → State → Prop
  | refl (s : State) : RunWithoutRst s s
  | step {s t u : State} (before : RunWithoutRst s t)
      (notRst : ∀ w rest, t.commands = w :: rest → decode w ≠ .command .rst) (run : Machine.step t = .next u) :
      RunWithoutRst s u

/-- Some response of the run carried an error (R233). -/
def WentWrong (s : State) : Prop := ∃ e, Response.error e ∈ s.responses

end Sys2Proof.Safety
end

