-- ==== Sys2Proof/Certificates/Slice0/Obligations.lean ====
section
/-! DEFINITION. The statements for the provers. Each docstring names the rule of spec/ it formalises. `Answers`, `Raises`,
`OnlyRaised`, `SameRegisters` and the invariants are defined in Sys2Proof/Safety.lean. -/

open Sys2Proof Sys2Proof.Machine Sys2Proof.Safety

/-! ## Encoding (30_encoding.md) -/

/-- R82: the worked encodings, read in both directions, and the four illegal words. -/
def Obligations.SpecEncodingExamples : Prop :=
  (∀ x ∈ [((0x1000000000000082 : Word), Instr.banew 130), (0x1200000100000040, .bset 64 1),
      (0x1200000000000040, .bset 64 0), (0x110000000000003F, .bget 63), (0x200004000000000F, .bfnew 15 4),
      (0x3100006300000000, .epush 0x63), (0x3200030000000000, .hpos 3), (0x0200050000000000, .rdreg 5),
      (0x2200000000000000, .bfqry)],
    decode x.1 = .command x.2 ∧ encode x.2 = x.1) ∧
  decode 0x0000000000000000 = .illegal (.unknownOpcode 0) ∧
  decode 0x1200000200000040 = .illegal (.unusedFieldNotZero .bset) ∧
  decode 0x2100000000000001 = .illegal (.unusedFieldNotZero .bfins) ∧
  decode 0x1100010000000000 = .illegal (.unusedFieldNotZero .bget)

/-- R71 to R73: decoding the word of any command, with any operands, gives the command back. -/
def Obligations.DecodeOfEncodeIsTheCommand : Prop := ∀ i : Instr, decode (encode i) = .command i

/-- R70, R75: a word that decodes to a command is the word of that command, so each command has one word. -/
def Obligations.EncodeOfDecodeIsTheWord : Prop := ∀ (w : Word) (i : Instr), decode w = .command i → encode i = w

/-- R74: the table; a word is the command of a row exactly when `W & mask = match`; the rows are disjoint; together they
are all the legal commands. -/
def Obligations.TableRowsSelectTheirCommands : Prop :=
  (Opcode.all.map fun o => (o.code, o.format, o.matchBits, o.maskBits)) =
    [(0x01, .z, 0x0100000000000000, 0xFFFFFFFFFFFFFFFF), (0x02, .a, 0x0200000000000000, 0xFF0000FFFFFFFFFF),
     (0x10, .p, 0x1000000000000000, 0xFFFFFFFF00000000), (0x11, .p, 0x1100000000000000, 0xFFFFFFFF00000000),
     (0x12, .v, 0x1200000000000000, 0xFFFFFFFE00000000), (0x13, .z, 0x1300000000000000, 0xFFFFFFFFFFFFFFFF),
     (0x14, .p, 0x1400000000000000, 0xFFFFFFFF00000000), (0x20, .kp, 0x2000000000000000, 0xFF0000FF00000000),
     (0x21, .z, 0x2100000000000000, 0xFFFFFFFFFFFFFFFF), (0x22, .z, 0x2200000000000000, 0xFFFFFFFFFFFFFFFF),
     (0x30, .z, 0x3000000000000000, 0xFFFFFFFFFFFFFFFF), (0x31, .y, 0x3100000000000000, 0xFFFFFF00FFFFFFFF),
     (0x32, .a, 0x3200000000000000, 0xFF0000FFFFFFFFFF)] ∧
  (∀ (w : Word) (o : Opcode), (∃ i, decode w = .command i ∧ i.opcode = o) ↔ w &&& o.maskBits = o.matchBits) ∧
  (∀ (w : Word) (o o' : Opcode), w &&& o.maskBits = o.matchBits → w &&& o'.maskBits = o'.matchBits → o = o')

/-- R75: a word that matches no row is illegal and no other word is; presented to the block in any mode it raises
`IllegalCommand` and does nothing else. -/
def Obligations.IllegalWordOnlyRaises : Prop :=
  (∀ w : Word, (∃ why, decode w = .illegal why) ↔ ∀ o : Opcode, w &&& o.maskBits ≠ o.matchBits) ∧
  (∀ (s : State) (w : Word) (rest : List Word), s.commands = w :: rest →
    (∀ o : Opcode, w &&& o.maskBits ≠ o.matchBits) →
    ∃ t, step s = .next t ∧ OnlyRaised { s with commands := rest } t .illegalCommand)

/-! ## Steps and responses (00_scope.md R9, 30_encoding.md R70, R76, R77) -/

/-- R9, R70: when the next word decodes to a command, the step is that command, run with the word taken from the port. That
the host's words stand in `State.commands` is the model's choice (log 2). The second clause says the same of the interface's
two functions and is the model's choice throughout (log 14): `withFetchWord` puts a word in the place of the host's next
word, if there is one, and if `decodeTableWord` reads that word as `i` the step is `i`, run with the word taken from the port,
which leaves the tail of the host's words. -/
def Obligations.StepRunsTheDecodedCommand : Prop :=
  (∀ (s : State) (w : Word) (rest : List Word) (i : Instr), s.commands = w :: rest → decode w = .command i →
    step s = exec i { s with commands := rest }) ∧
  (∀ (s : State) (w : Nat) (i : Instr), decodeTableWord 64 w = some i →
    step (s.withFetchWord 64 w) = exec i { s with commands := s.commands.tail })

/-- The model's choice (log 4), from R206: with no command at the port the block holds its state. -/
def Obligations.StepIdlesWithoutACommand : Prop := ∀ s : State, s.commands = [] → step s = .next s

/-- R76: every command word, legal or not, gives exactly one response, and the beats of a response. The 32-bit field holds
`NDATA` because no response has `2^32` beats. -/
def Obligations.EveryCommandGivesOneResponse : Prop :=
  (∀ (s : State) (w : Word) (rest : List Word), s.commands = w :: rest →
    ∃ t r, step s = .next t ∧ t.commands = rest ∧ t.responses = s.responses ++ [r] ∧ r.data.length < 2 ^ 32) ∧
  (∀ r : Response, r.beats = r.statusBeat :: r.data ∧ r.statusBeat.extractLsb' 0 4 = r.err ∧
    r.statusBeat.extractLsb' 4 28 = 0 ∧ (r.data.length < 2 ^ 32 → (r.statusBeat.extractLsb' 32 32).toNat = r.data.length)) ∧
  (∀ ds : List Word, (Response.ok ds).err = 0 ∧ (Response.ok ds).data = ds) ∧
  (∀ e : Err, (Response.error e).err = e.code ∧ (Response.error e).data = [])

/-- R190: the numbers of the error codes. -/
def Obligations.ErrorCodeNumbers : Prop :=
  Err.invalidParameters.code = 1 ∧ Err.invalidSize.code = 2 ∧ Err.indexOutOfRange.code = 3 ∧
  Err.illegalCommand.code = 4 ∧ Err.wrongMode.code = 5 ∧ Err.elementOverflow.code = 6 ∧ Err.badOperand.code = 7

/-- R77: the number of data beats of a successful response, per command. -/
def Obligations.DataBeatsPerCommand : Prop :=
  ∀ (i : Instr) (s t : State) (ds : List Word), exec i s = .next t → Succeeded s t ds → ds.length = ndata i.opcode s.toBlock

/-! ## Reset and the system commands (10_state.md, 43_system.md) -/

/-- R34: the state after a hardware reset, and after `RST` from any state; `RST` answers with no data. -/
def Obligations.ResetAndRstGiveTheResetState : Prop :=
  IsResetState State.reset ∧
  (∀ s : State, ∃ t, exec .rst s = .next t ∧ IsResetState t ∧ t.commands = s.commands ∧ Succeeded s t [])

/-- R181: `RDREG` answers each register of R22, zero-extended, and refuses every other number; it changes nothing. -/
def Obligations.RdregReadsEveryRegister : Prop :=
  ∀ s : State,
    Answers (.rdreg 0) s [match s.mode with | .unconf => 0 | .array => 1 | .filter => 2] ∧
    Answers (.rdreg 1) s [BitVec.ofNat 64 s.numBits.toNat] ∧
    Answers (.rdreg 2) s [BitVec.ofNat 64 ((s.numBits.toNat + 63) / 64)] ∧
    Answers (.rdreg 3) s [BitVec.ofNat 64 s.k.toNat] ∧
    Answers (.rdreg 4) s [BitVec.ofNat 64 s.elen.toNat] ∧
    Answers (.rdreg 5) s [BitVec.ofNat 64 s.errflags.toNat] ∧
    Answers (.rdreg 8) s [BitVec.ofNat 64 Config.block.numSlotsMax] ∧
    Answers (.rdreg 9) s [BitVec.ofNat 64 Config.block.kMax] ∧
    Answers (.rdreg 10) s [BitVec.ofNat 64 Config.block.elemMax] ∧
    Answers (.rdreg 11) s [BitVec.ofNat 64 (min Config.block.digestBits (2 ^ 32 - 1))] ∧
    ∀ r : BitVec 16, r.toNat = 6 ∨ r.toNat = 7 ∨ 12 ≤ r.toNat → Raises (.rdreg r) s .badOperand

/-- R8: the ranges of the open parameters, and `M_MAX < 2^32`. -/
def Obligations.ParametersAreInRange : Prop :=
  let c := Config.block
  1 ≤ c.numSlotsMax ∧ c.numSlotsMax ≤ 2 ^ 26 - 1 ∧ c.mMax = 64 * c.numSlotsMax ∧ c.mMax < 2 ^ 32 ∧
  1 ≤ c.kMax ∧ c.kMax ≤ 2 ^ 16 - 1 ∧ 1 ≤ c.elemMax ∧ c.elemMax ≤ 2 ^ 32 - 1 ∧ 1 ≤ c.digestBits ∧
  ∀ e, c.digest e < 2 ^ c.digestBits

/-! ## The packed bit-array (20_memory.md, 40_bitarray.md) -/

/-- R101: `BANEW` in every mode. -/
def Obligations.BanewConstructsAZeroedArray : Prop :=
  ∀ (s : State) (n : BitVec 32),
    (n = 0 → Raises (.banew n) s .invalidSize) ∧
    (Config.block.mMax < n.toNat → Raises (.banew n) s .invalidSize) ∧
    (n ≠ 0 → n.toNat ≤ Config.block.mMax →
      ∃ t, exec (.banew n) s = .next t ∧ t.mode = .array ∧ t.numBits = n ∧ t.k = 0 ∧
        t.numSlots = (n.toNat + 63) / 64 ∧ (∀ a < t.numSlots, t.slots.read a = 0) ∧ t.elem = s.elem ∧
        t.errflags = s.errflags ∧ t.commands = s.commands ∧ Succeeded s t [])

/-- R102: `BGET`. -/
def Obligations.BgetAnswersTheBit : Prop :=
  ∀ (s : State) (p : BitVec 32),
    (s.mode = .unconf → Raises (.bget p) s .wrongMode) ∧
    (s.mode ≠ .unconf → s.numBits ≤ p → Raises (.bget p) s .indexOutOfRange) ∧
    (s.mode ≠ .unconf → p < s.numBits →
      Answers (.bget p) s [if (s.slots.read (p.toNat / 64)).getLsbD (p.toNat % 64) then 1 else 0])

/-- R103: `BSET`, with its frame: one bit changes, no other bit, no other word, no register, not the element. -/
def Obligations.BsetWritesOneBit : Prop :=
  ∀ (s : State) (p : BitVec 32) (v : BitVec 1),
    (s.mode ≠ .array → Raises (.bset p v) s .wrongMode) ∧
    (s.mode = .array → s.numBits ≤ p → Raises (.bset p v) s .indexOutOfRange) ∧
    (s.mode = .array → p < s.numBits →
      ∃ t, exec (.bset p v) s = .next t ∧
        (∀ a o, (t.slots.read a).getLsbD o =
          if a = p.toNat / 64 ∧ o = p.toNat % 64 then v == 1 else (s.slots.read a).getLsbD o) ∧
        SameRegisters s t ∧ t.elem = s.elem ∧ Succeeded s t [])

/-- R104 with R54: `BTOINT` answers `SLOT[0]` up to `SLOT[NUM_SLOTS-1]`, and these beats are the digits of `ToInteger`. -/
def Obligations.BtointAnswersTheSlots : Prop :=
  ∀ s : State,
    (s.mode = .unconf → Raises .btoint s .wrongMode) ∧
    (s.mode ≠ .unconf →
      ∃ ds : List Word, Answers .btoint s ds ∧ ds.length = (s.numBits.toNat + 63) / 64 ∧
        (∀ a (h : a < ds.length), ds[a] = s.slots.read a) ∧
        ds.foldr (fun d n => d.toNat + 2 ^ 64 * n) 0 = s.toInteger)

/-- R105: `BRDSLOT`. -/
def Obligations.BrdslotAnswersTheSlot : Prop :=
  ∀ (s : State) (a : BitVec 32),
    (s.mode = .unconf → Raises (.brdslot a) s .wrongMode) ∧
    (s.mode ≠ .unconf → s.numSlots ≤ a.toNat → Raises (.brdslot a) s .indexOutOfRange) ∧
    (s.mode ≠ .unconf → a.toNat < s.numSlots → Answers (.brdslot a) s [s.slots.read a.toNat])

/-- R106: the primitives GetBit and SetBit, on any slot memory. -/
def Obligations.SetBitWritesOneWord : Prop :=
  ∀ (m : Memory) (i : Nat) (v : BitVec 1),
    (m.getBit i = if (m.read (i / 64)).getLsbD (i % 64) then 1 else 0) ∧
    (m.setBit i v).read (i / 64) =
      (if v = 1 then m.read (i / 64) ||| (1#64 <<< (i % 64)) else m.read (i / 64) &&& ~~~(1#64 <<< (i % 64))) ∧
    (∀ a, a ≠ i / 64 → (m.setBit i v).read a = m.read a) ∧
    (m.setBit i v).getBit i = v ∧
    (∀ p, p ≠ i → (m.setBit i v).getBit p = m.getBit p) ∧
    (1#64 <<< 63 : Word) = 0x8000000000000000

/-- R107 and R51: position `64*q + o` is slot `q`, offset `o`; with 32-bit positions these are `i[31:6]` and `i[5:0]`. -/
def Obligations.SlotBoundaryDecomposition : Prop :=
  (∀ q o : Nat, o ≤ 63 → slotOf (64 * q + o) = q ∧ offOf (64 * q + o) = o) ∧
  (∀ i : BitVec 32, slotOf i.toNat = (i.extractLsb' 6 26).toNat ∧ offOf i.toNat = (i.extractLsb' 0 6).toNat) ∧
  slotOf 63 = 0 ∧ offOf 63 = 63 ∧ slotOf 64 = 1 ∧ offOf 64 = 0

/-- R108: after a successful `BANEW n` and any sequence of successful `BSET`s, `BGET` answers the last value written, or 0. -/
def Obligations.ReadingBackTheLastWrite : Prop :=
  ∀ (s : State) (n : BitVec 32) (writes : List (BitVec 32 × BitVec 1)) (p : BitVec 32),
    n ≠ 0 → n.toNat ≤ Config.block.mMax → (∀ w ∈ writes, w.1 < n) → p < n →
    ∃ t, runList (.banew n :: writes.map fun w => .bset w.1 w.2) s = .next t ∧
      Answers (.bget p) t [(lastWrite writes p).setWidth 64]

/-- R110: after the same commands `ToInteger` is the sum of `2^i` over the positions whose last written value is 1. -/
def Obligations.ProjectionIsTheSumOfSetBits : Prop :=
  ∀ (s : State) (n : BitVec 32) (writes : List (BitVec 32 × BitVec 1)),
    n ≠ 0 → n.toNat ≤ Config.block.mMax → (∀ w ∈ writes, w.1 < n) →
    ∃ t, runList (.banew n :: writes.map fun w => .bset w.1 w.2) s = .next t ∧
      t.toInteger =
        ((List.range n.toNat).map fun i => if lastWrite writes (BitVec.ofNat 32 i) = 1 then 2 ^ i else 0).sum

/-- R55: bit `i` of `ToInteger` is what `BGET i` answers, and the bits from `NUM_BITS` on are 0. -/
def Obligations.ProjectionReproducesTheBits : Prop :=
  ∀ s : State, StateInv Config.block s → s.mode ≠ .unconf →
    (∀ i : BitVec 32, i < s.numBits → Answers (.bget i) s [BitVec.ofNat 64 (s.toInteger / 2 ^ i.toNat % 2)]) ∧
    (∀ i : Nat, s.numBits.toNat ≤ i → s.toInteger / 2 ^ i % 2 = 0)

/-- R111 with R32 (I5): padding is zero, so `ToInteger < 2^NUM_BITS`. -/
def Obligations.ProjectionIsBelowTwoToTheNumBits : Prop :=
  ∀ s : State, StateInv Config.block s → s.toInteger < 2 ^ s.numBits.toNat

/-- R109: the frame of the family. -/
def Obligations.BitArrayFrame : Prop :=
  (∀ (p : BitVec 32) (v : BitVec 1) (s t : State), exec (.bset p v) s = .next t → (∀ e, ¬Failed s t e) →
    (∀ i, i ≠ p.toNat → t.slots.getBit i = s.slots.getBit i) ∧
    (∀ a, a ≠ p.toNat / 64 → t.slots.read a = s.slots.read a) ∧ SameRegisters s t ∧ t.elem = s.elem) ∧
  (∀ (i : Instr) (s t : State), i.opcode ∈ [Opcode.bget, .btoint, .brdslot] → exec i s = .next t →
    (∀ e, ¬Failed s t e) → t.slots = s.slots ∧ SameRegisters s t ∧ t.elem = s.elem) ∧
  (∀ (i : Instr) (s t : State) (e : Err), i.opcode ∈ [Opcode.banew, .bget, .bset, .btoint, .brdslot] →
    exec i s = .next t → Failed s t e → OnlyRaised s t e)

/-! ## The Bloom filter (41_bloom_filter.md) -/

/-- R135: `BFNEW` in every mode; the check on `k` comes first. -/
def Obligations.BfnewConstructsAZeroedFilter : Prop :=
  ∀ (s : State) (m : BitVec 32) (k : BitVec 16),
    (k = 0 ∨ Config.block.kMax < k.toNat → Raises (.bfnew m k) s .invalidParameters) ∧
    (k ≠ 0 → k.toNat ≤ Config.block.kMax → m = 0 ∨ Config.block.mMax < m.toNat →
      Raises (.bfnew m k) s .invalidSize) ∧
    (k ≠ 0 → k.toNat ≤ Config.block.kMax → m ≠ 0 → m.toNat ≤ Config.block.mMax →
      ∃ t, exec (.bfnew m k) s = .next t ∧ t.mode = .filter ∧ t.numBits = m ∧ t.k = k ∧
        t.numSlots = (m.toNat + 63) / 64 ∧ (∀ a < t.numSlots, t.slots.read a = 0) ∧ t.elem = s.elem ∧
        t.errflags = s.errflags ∧ t.commands = s.commands ∧ Succeeded s t [])

/-- R136 with R162 and R163: `BFINS` sets the bits at the `K` positions and changes nothing else. That `NUM_BITS` is not 0 in
`FILTER` mode is (I3) of R32, which StepKeepsTheInvariants states. -/
def Obligations.BfinsSetsThePositions : Prop :=
  ∀ s : State,
    (s.mode ≠ .filter → Raises .bfins s .wrongMode) ∧
    (s.mode = .filter → s.numBits ≠ 0 →
      ∃ t, exec .bfins s = .next t ∧
        (∀ a o, (t.slots.read a).getLsbD o = true ↔
          (s.slots.read a).getLsbD o = true ∨
            ∃ j < s.k.toNat,
              let p := Config.block.digest (List.replicate (j + 1) s.elem).flatten % s.numBits.toNat
              p / 64 = a ∧ p % 64 = o) ∧
        SameRegisters s t ∧ t.elem = s.elem ∧ Succeeded s t [])

/-- R137 with R162 and R163: `BFQRY` answers 1 when every one of the `K` bits is 1, else 0, and changes nothing. `NUM_BITS`
is not 0 by (I3) of R32. -/
def Obligations.BfqryAnswersTheAnd : Prop :=
  ∀ s : State,
    (s.mode ≠ .filter → Raises .bfqry s .wrongMode) ∧
    (s.mode = .filter → s.numBits ≠ 0 →
      let bit := fun j : Nat =>
        let p := Config.block.digest (List.replicate (j + 1) s.elem).flatten % s.numBits.toNat
        (s.slots.read (p / 64)).getLsbD (p % 64)
      ((∀ j < s.k.toNat, bit j = true) → Answers .bfqry s [1]) ∧
      ((∃ j < s.k.toNat, bit j = false) → Answers .bfqry s [0]))

/-- R137, corner case: a freshly constructed filter answers 0 to every element. -/
def Obligations.FreshFilterAnswersZero : Prop :=
  ∀ (s : State) (m : BitVec 32) (k : BitVec 16) (e : List Byte),
    k ≠ 0 → k.toNat ≤ Config.block.kMax → m ≠ 0 → m.toNat ≤ Config.block.mMax →
    ∃ t, exec (.bfnew m k) s = .next t ∧ Answers .bfqry { t with elem := e } [0]

/-- R138: the engine of `K_MAX` lanes and any tree of ANDs over them, and the evaluation that stops at the first 0, give the
answer of `BFQRY`. -/
def Obligations.MembershipEngineAgreesWithTheLoop : Prop :=
  ∀ (s : State) (tree : AndTree), s.mode = .filter → s.k.toNat ≤ Config.block.kMax →
    tree.lanes.Perm (List.range Config.block.kMax) →
    Answers .bfqry s [(tree.output Config.block s.toBlock).setWidth 64] ∧
    Answers .bfqry s [(stopAtZero Config.block s.toBlock (List.range s.k.toNat)).setWidth 64]

/-- R139: no false negatives. Once an element has been inserted, a query for it answers 1, whatever commands came between,
if none of them was an `RST` or a successful `BANEW` or `BFNEW`. -/
def Obligations.NoFalseNegatives : Prop :=
  ∀ s t u : State, s.mode = .filter → exec .bfins s = .next t → NoRebuild t u → u.elem = s.elem → Answers .bfqry u [1]

/-- R140: inserting the same element twice leaves the same array as inserting it once. -/
def Obligations.InsertionIsIdempotent : Prop :=
  ∀ s : State, s.mode = .filter → Canonical s →
    ∃ t u, exec .bfins s = .next t ∧ exec .bfins t = .next u ∧ u.slots = t.slots ∧ u.toInteger = t.toInteger

/-- R141: in `FILTER` mode, until the filter is destroyed, bits only go from 0 to 1 and `ToInteger` never decreases. -/
def Obligations.FilterBitsOnlyGrow : Prop :=
  ∀ s t : State, s.mode = .filter → NoRebuild s t →
    (∀ i, s.slots.getBit i = 1 → t.slots.getBit i = 1) ∧ s.toInteger ≤ t.toInteger

/-- R146: the order of the `K` bit writes of one `BFINS` does not matter, nor the order of insertions; the array is the OR of
what it was and the position masks of all inserted elements. -/
def Obligations.InsertionOrderDoesNotMatter : Prop :=
  (∀ (s : State) (js : List Nat), s.mode = .filter → Canonical s → js.Perm (List.range s.k.toNat) →
    ∃ t, exec .bfins s = .next t ∧ t.slots = setPositions Config.block s.toBlock js) ∧
  (∀ (s : State) (es es' : List (List Byte)), s.mode = .filter → Canonical s → es.Perm es' →
    ∃ t t', insertAll es s = .next t ∧ insertAll es' s = .next t' ∧ t.slots = t'.slots) ∧
  (∀ (s : State) (es : List (List Byte)), s.mode = .filter →
    ∃ t, insertAll es s = .next t ∧
      ∀ i, t.slots.getBit i = 1 ↔ s.slots.getBit i = 1 ∨
        ∃ e ∈ es, ∃ j < s.k.toNat, pos Config.block j e s.numBits.toNat = i)

/-- R147: every position is below `NUM_BITS`, so `BFINS` writes no padding bit, and neither it nor `BFQRY` raises
`IndexOutOfRange`. -/
def Obligations.PositionsAreInRange : Prop :=
  (∀ (j : Nat) (e : List Byte) (m : Nat), 1 ≤ m → pos Config.block j e m < m) ∧
  (∀ s t : State, StateInv Config.block s → exec .bfins s = .next t →
    ¬Failed s t .indexOutOfRange ∧ ∀ i, s.numBits.toNat ≤ i → t.slots.getBit i = s.slots.getBit i) ∧
  (∀ s t : State, exec .bfqry s = .next t → ¬Failed s t .indexOutOfRange)

/-! ## The element and the positions (42_hash_position.md) -/

/-- R165: `ECLR`, with its frame. -/
def Obligations.EclrEmptiesTheElement : Prop :=
  ∀ s : State, ∃ t, exec .eclr s = .next t ∧ t.elem = [] ∧ t.elen = 0 ∧ t.slots = s.slots ∧ SameRegisters s t ∧
    Succeeded s t []

/-- R166: `EPUSH`, with its frame. -/
def Obligations.EpushAppendsTheByte : Prop :=
  ∀ (s : State) (b : Byte),
    (s.elem.length = Config.block.elemMax → Raises (.epush b) s .elementOverflow) ∧
    (s.elem.length ≠ Config.block.elemMax →
      ∃ t, exec (.epush b) s = .next t ∧ t.elem = s.elem ++ [b] ∧ t.elen = s.elen + 1 ∧ t.slots = s.slots ∧
        SameRegisters s t ∧ Succeeded s t [])

/-- R167 with R162 and R163: `HPOS`. `NUM_BITS` is not 0 by (I3) of R32. -/
def Obligations.HposAnswersThePosition : Prop :=
  ∀ (s : State) (j : BitVec 16),
    (s.mode ≠ .filter → Raises (.hpos j) s .wrongMode) ∧
    (s.mode = .filter → s.k ≤ j → Raises (.hpos j) s .badOperand) ∧
    (s.mode = .filter → j < s.k → s.numBits ≠ 0 →
      Answers (.hpos j) s [BitVec.ofNat 64
        (Config.block.digest (List.replicate (j.toNat + 1) s.elem).flatten % s.numBits.toNat)])

/-- R168 (a), (c), (d), (e): the empty element has one position, an array of one bit has one position, equal repetitions
have equal hashes, and how many bytes are digested. -/
def Obligations.DegeneratePositions : Prop :=
  (∀ j m : Nat, pos Config.block j [] m = Config.block.digest [] % m) ∧
  (∀ (j : Nat) (e : List Byte), pos Config.block j e 1 = 0) ∧
  (∀ (a b : Nat) (e f : List Byte), 1 ≤ a → 1 ≤ b → rep e a = rep f b →
    hashJ Config.block (a - 1) e = hashJ Config.block (b - 1) f) ∧
  (∀ (j : Nat) (e : List Byte), (rep e (j + 1)).length = (j + 1) * e.length)

/-- R22, R27: the element changes only by `ECLR`, `EPUSH` and `RST`. -/
def Obligations.ElementChangesOnlyByItsCommands : Prop :=
  ∀ (i : Instr) (s t : State), exec i s = .next t → i.opcode ∉ [Opcode.eclr, .epush, .rst] →
    t.elem = s.elem ∧ t.elen = s.elen

/-- R81, R227: loading an element by `ECLR` and `EPUSH`s leaves exactly its bytes if they fit; if they do not, it leaves the
prefix that fits, and `ElementOverflow` is recorded. Nothing else changes. -/
def Obligations.LoadingAnElement : Prop :=
  ∀ (s : State) (bytes : List Byte),
    ∃ t, runList (Pseudo.expand (.eloadb bytes)) s = .next t ∧ t.elem = bytes.take Config.block.elemMax ∧
      t.slots = s.slots ∧ t.mode = s.mode ∧ t.numBits = s.numBits ∧ t.k = s.k ∧
      (bytes.length ≤ Config.block.elemMax → t.errflags = s.errflags) ∧
      (Config.block.elemMax < bytes.length → t.errflags = s.errflags ||| 0x40)

/-- R81: the expansions of the pseudo-instructions, as the words of vector V-EN-4. -/
def Obligations.PseudoInstructionWords : Prop :=
  (Pseudo.expand (.insert ['c', 'a', 't'])).map encode =
    [0x3000000000000000, 0x3100006300000000, 0x3100006100000000, 0x3100007400000000, 0x2100000000000000] ∧
  (Pseudo.expand (.contains ['c', 'a', 't'])).map encode =
    [0x3000000000000000, 0x3100006300000000, 0x3100006100000000, 0x3100007400000000, 0x2200000000000000] ∧
  (Pseudo.expand (.eload [])).map encode = [0x3000000000000000] ∧
  (Pseudo.expand (.bclr 64)).map encode = [0x1200000000000040]

/-! ## Errors and modes (60_exceptions.md) -/

/-- R193: raising an error changes nothing but its bit of `ERRFLAGS`, and gives its code and no data. -/
def Obligations.RaisingChangesOnlyItsFlag : Prop :=
  ∀ (i : Instr) (s t : State) (e : Err), exec i s = .next t → Failed s t e → OnlyRaised s t e

/-- R28: a successful command other than `RST` leaves `ERRFLAGS` as it is; no command but `RST` clears a bit; bit 0 reads
as 0. -/
def Obligations.ErrorRecordIsSticky : Prop :=
  (∀ (i : Instr) (s t : State) (ds : List Word), exec i s = .next t → i ≠ .rst → Succeeded s t ds →
    t.errflags = s.errflags) ∧
  (∀ (i : Instr) (s t : State) (b : Nat), exec i s = .next t → i ≠ .rst → s.errflags.getLsbD b = true →
    t.errflags.getLsbD b = true) ∧
  (∀ s : State, s.errflags.getLsbD 0 = false)

/-- R194: after a failed command the next one runs as it would have without it, but for `ERRFLAGS` as `RDREG 5` reads it. -/
def Obligations.FailedCommandLeavesNoTrace : Prop :=
  ∀ (i j : Instr) (s t : State) (e : Err), exec i s = .next t → Failed s t e →
    ∃ u v r r', exec j t = .next u ∧ exec j s = .next v ∧
      u.responses = t.responses ++ [r] ∧ v.responses = s.responses ++ [r'] ∧ (j ≠ .rdreg 5 → r = r') ∧
      u.mode = v.mode ∧ u.numBits = v.numBits ∧ u.k = v.k ∧ u.elem = v.elem ∧ u.slots = v.slots ∧
      (j ≠ .rst → u.errflags = v.errflags ||| (1#8 <<< e.code.toNat))

/-- R197: a command that failed fails again if it is issued again, and then changes nothing at all but the response. -/
def Obligations.FailedCommandFailsAgain : Prop :=
  ∀ (i : Instr) (s t : State) (e : Err), exec i s = .next t → Failed s t e →
    ∃ u, exec i t = .next u ∧ OnlyRaised t u e ∧ u.errflags = t.errflags

/-- R199: the table of commands and modes, and how a mode is entered. -/
def Obligations.ModesAcceptTheirCommands : Prop :=
  (∀ (i : Instr) (s : State), accepted i.opcode s.mode = false → Raises i s .wrongMode) ∧
  (∀ (i : Instr) (s t : State), accepted i.opcode s.mode = true → exec i s = .next t → ¬Failed s t .wrongMode) ∧
  (∀ (i : Instr) (s t : State), exec i s = .next t → t.mode ≠ s.mode →
    Succeeded s t [] ∧
      ((∃ n, i = .banew n) ∧ t.mode = .array ∨ (∃ m k, i = .bfnew m k) ∧ t.mode = .filter ∨
        i = .rst ∧ t.mode = .unconf))

/-! ## Whole-machine rules (10_state.md, 40_bitarray.md R112, 70_reset_and_hazards.md) -/

/-- R112: `NUM_BITS` changes only by a successful `BANEW` or `BFNEW` or by a reset, and each leaves an all-zero array; so
does `K` (R26). -/
def Obligations.SizeChangesOnlyByConstruction : Prop :=
  ∀ (i : Instr) (s t : State), exec i s = .next t → t.numBits ≠ s.numBits ∨ t.k ≠ s.k →
    rebuilds i.opcode = true ∧ Succeeded s t [] ∧ ∀ a < t.numSlots, t.slots.read a = 0

/-- R50 (a), R58: the slot memory is written only by the constructing commands, `BSET` and `BFINS`; a single `BSET` writes
one word. -/
def Obligations.SlotsChangeOnlyByTheirCommands : Prop :=
  ∀ (i : Instr) (s t : State), exec i s = .next t →
    i.opcode ∉ [Opcode.banew, .bfnew, .rst, .bset, .bfins] → t.slots = s.slots

/-- R36: the inspecting commands change no state but, when they fail, `ERRFLAGS`. -/
def Obligations.InspectionChangesNothing : Prop :=
  ∀ (i : Instr) (s : State), i.opcode ∈ [Opcode.rdreg, .bget, .brdslot, .btoint, .hpos, .bfqry] →
    (∃ ds, Answers i s ds) ∨ ∃ e, Raises i s e

/-- R32 holds after reset, and so does the model's canonical form of the slot memory (log 5). -/
def Obligations.ResetMeetsTheInvariants : Prop := StateInv Config.block State.reset ∧ Canonical State.reset

/-- R32: the invariants (I1) to (I7) hold after every step from every state that meets them. -/
def Obligations.StepKeepsTheInvariants : Prop :=
  ∀ s t : State, StateInv Config.block s → step s = .next t → StateInv Config.block t

/-- The model's choice (log 5): the slot memory keeps its canonical form and lists nothing beyond the array. -/
def Obligations.StepKeepsTheMemoryCanonical : Prop :=
  ∀ s t : State, StateInv Config.block s → Canonical s → step s = .next t → Canonical t

/-- R233: a run that starts with no error recorded and takes no `RST` has gone wrong exactly when `ERRFLAGS` is not 0 at
its end. -/
def Obligations.GoneWrongExactlyWhenFlagged : Prop :=
  ∀ s t : State, s.responses = [] → s.errflags = 0 → RunWithoutRst s t → (WentWrong t ↔ t.errflags ≠ 0)

/-! ## The host's sizing (41_bloom_filter.md R130 to R134) -/

/-- R134: the golden values of the sizing formulas. -/
def Obligations.SizingGoldenValues : Prop :=
  Sizing.computeM 100 (1 / 10) = 480 ∧ Sizing.computeK 100 480 = 4 ∧
  Sizing.computeM 3 (1 / 10) = 15 ∧ Sizing.computeK 3 15 = 4

/-- R130 to R132: `m` and `k` are at least 1 and are the real values rounded up. -/
def Obligations.SizingRoundsUp : Prop :=
  ∀ (capacity : ℕ) (errorRate : ℝ), 1 ≤ capacity → 0 < errorRate → errorRate < 1 →
    let x := -(capacity * Real.log errorRate) / Real.log 2 ^ 2
    let m := Sizing.computeM capacity errorRate
    let y := (m : ℝ) / capacity * Real.log 2
    let k := Sizing.computeK capacity m
    1 ≤ m ∧ x ≤ m ∧ (m : ℝ) < x + 1 ∧ 1 ≤ k ∧ y ≤ k ∧ (k : ℝ) < y + 1

/-- R133, R224, R225: the host refuses invalid parameters, and a construction it issues fails only if this block is too
small for it, never because `m` or `k` is 0. -/
def Obligations.HostConstructionIsSound : Prop :=
  (∀ (capacity : ℤ) (errorRate : ℝ), ¬Sizing.ValidParameters capacity errorRate →
    Sizing.hostNew capacity errorRate = .invalidParameters) ∧
  (∀ (capacity : ℤ) (errorRate : ℝ) (i : Instr), Sizing.hostNew capacity errorRate = .issue i →
    Sizing.ValidParameters capacity errorRate ∧
    ∃ m k, i = .bfnew m k ∧ m.toNat = Sizing.computeM capacity.toNat errorRate ∧
      k.toNat = Sizing.computeK capacity.toNat m.toNat ∧
      ∀ s : State, m.toNat ≤ Config.block.mMax → k.toNat ≤ Config.block.kMax →
        ∃ t, exec i s = .next t ∧ t.mode = .filter ∧ t.numBits = m ∧ t.k = k ∧ Succeeded s t [])

/-! ## The step function with the commands as its parameter (00_scope.md R10) -/

/-- R10: the parameters of R8 and the commands the host issues are parameters of the step function, and the block's state is
all it depends on. `runWord` and `runWords` are that function; a step is `runWord` at the word the host presents, and as many
steps as the host has words are `runWords` at them. That the machine's `step` finds the words in `State.commands` and leaves
the responses in `State.responses` is the model's choice (log 2, log 3). -/
def Obligations.StepsAreTheFunctionOfBlockAndCommands : Prop :=
  (∀ (s : State) (w : Word) (rest : List Word), s.commands = w :: rest →
    step s = .next (State.after { s with commands := rest } (runWord Config.block w s.toBlock))) ∧
  (∀ s : State, Host.Core.run core s.commands.length s =
    .next
      { toBlock := (runWords Config.block s.commands s.toBlock).1
        commands := []
        responses := s.responses ++ (runWords Config.block s.commands s.toBlock).2 })
end

