-- ==== Sys2Proof/Laws/Memory.lean ====
section
/-! SUPPORT. The slot memory: what reading gives after a write, that every write keeps the canonical form, that a canonical
memory is determined by what it reads, and the same for single bits. -/

namespace Sys2Proof.Machine

theorem read_cons (x : Nat × Word) (m : Memory) (a : Nat) :
    Memory.read (x :: m) a = if x.1 = a then x.2 else Memory.read m a := rfl

@[simp] theorem read_nil (a : Nat) : Memory.read [] a = 0 := rfl

@[simp] theorem read_zeroed (a : Nat) : Memory.zeroed.read a = 0 := rfl

theorem read_eq_zero_of_not_listed {m : Memory} {a : Nat} (h : ∀ x ∈ m, x.1 ≠ a) : m.read a = 0 := by
  induction m with
  | nil => rfl
  | cons x m ih => simp_all [read_cons]

theorem read_erase (m : Memory) (a b : Nat) : (m.erase a).read b = if b = a then 0 else m.read b := by
  induction m with
  | nil => simp [Memory.erase]
  | cons x m ih =>
    unfold Memory.erase at ih ⊢
    by_cases hx : x.1 = a
    · rw [List.filter_cons_of_neg (by simpa using hx), ih, read_cons]
      by_cases hb : b = a <;> simp_all [eq_comm]
    · rw [List.filter_cons_of_pos (by simpa using hx), read_cons, ih, read_cons]
      by_cases hb : b = a <;> simp_all

theorem read_insert {m : Memory} {a : Nat} (h : ∀ x ∈ m, x.1 ≠ a) (w : Word) (b : Nat) :
    (m.insert a w).read b = if b = a then w else m.read b := by
  induction m with
  | nil => simp [Memory.insert, read_cons, eq_comm]
  | cons x m ih =>
    have hx : x.1 ≠ a := h x (by simp)
    have ih := ih fun y hy => h y (by simp [hy])
    unfold Memory.insert
    split
    · simp [read_cons, eq_comm]
    · rw [read_cons, ih, read_cons]
      by_cases hb : b = a <;> simp_all

theorem not_listed_erase (m : Memory) (a : Nat) : ∀ x ∈ m.erase a, x.1 ≠ a := by
  simp [Memory.erase]

/-- Read after write: the slot written holds the word, every other slot is as before. -/
theorem read_write (m : Memory) (a : Nat) (w : Word) (b : Nat) :
    (m.write a w).read b = if b = a then w else m.read b := by
  unfold Memory.write
  split
  · rw [read_erase]; simp_all
  · rw [read_insert (not_listed_erase m a), read_erase]
    by_cases hb : b = a <;> simp_all

theorem mem_insert {m : Memory} {a : Nat} {w : Word} {x : Nat × Word} :
    x ∈ m.insert a w ↔ x = (a, w) ∨ x ∈ m := by
  induction m with
  | nil => simp [Memory.insert]
  | cons y m ih => unfold Memory.insert; split <;> simp [ih]; tauto

/-- A slot listed after a write is the slot written or was listed before. -/
theorem mem_write {m : Memory} {a : Nat} {w : Word} {x : Nat × Word} (h : x ∈ m.write a w) :
    x.1 = a ∨ x ∈ m := by
  unfold Memory.write at h
  split at h
  · exact .inr (List.mem_filter.mp h).1
  · rcases mem_insert.mp h with rfl | h
    · exact .inl rfl
    · exact .inr (List.mem_filter.mp h).1

theorem pairwise_insert {m : Memory} {a : Nat} (h : m.Pairwise fun x y => x.1 < y.1) (ha : ∀ x ∈ m, x.1 ≠ a) (w : Word) :
    (m.insert a w).Pairwise fun x y => x.1 < y.1 := by
  induction m with
  | nil => simp [Memory.insert]
  | cons x m ih =>
    rw [List.pairwise_cons] at h
    have hx : x.1 ≠ a := ha x (by simp)
    unfold Memory.insert
    split
    · rename_i hlt
      refine List.pairwise_cons.mpr ⟨?_, List.pairwise_cons.mpr h⟩
      intro y hy
      rcases List.mem_cons.mp hy with rfl | hy
      · exact hlt
      · exact Nat.lt_trans hlt (h.1 y hy)
    · refine List.pairwise_cons.mpr ⟨?_, ih h.2 fun y hy => ha y (by simp [hy])⟩
      intro y hy
      rcases mem_insert.mp hy with rfl | hy
      · show x.1 < a
        omega
      · exact h.1 y hy

/-- Every write keeps the canonical form. -/
theorem wf_write {m : Memory} (h : m.wf) (a : Nat) (w : Word) : (m.write a w).wf := by
  have hp : (m.erase a).Pairwise fun x y => x.1 < y.1 := h.1.filter _
  have hz : ∀ x ∈ m.erase a, x.2 ≠ 0 := fun x hx => h.2 x (List.mem_filter.mp hx).1
  unfold Memory.write
  split
  · exact ⟨hp, hz⟩
  · refine ⟨pairwise_insert hp (not_listed_erase m a) w, fun x hx => ?_⟩
    rcases mem_insert.mp hx with rfl | hx
    · assumption
    · exact hz x hx

theorem wf_zeroed : Memory.zeroed.wf := by simp [Memory.zeroed, Memory.wf]

theorem wf_tail {x : Nat × Word} {m : Memory} (h : Memory.wf (x :: m)) : Memory.wf m :=
  ⟨(List.pairwise_cons.mp h.1).2, fun y hy => h.2 y (by simp [hy])⟩

theorem read_below {m : Memory} {a : Nat} (h : ∀ x ∈ m, a < x.1) : m.read a = 0 :=
  read_eq_zero_of_not_listed fun x hx => Nat.ne_of_gt (h x hx)

/-- Two canonical memories that read the same are the same list. -/
theorem Memory.ext_of_wf {m n : Memory} (hm : m.wf) (hn : n.wf) (h : ∀ a, m.read a = n.read a) : m = n := by
  induction m generalizing n with
  | nil =>
    cases n with
    | nil => rfl
    | cons y n => exact absurd (by simpa [read_cons] using (h y.1).symm) (hn.2 y (by simp))
  | cons x m ih =>
    cases n with
    | nil => exact absurd (by simpa [read_cons] using h x.1) (hm.2 x (by simp))
    | cons y n =>
      have hxm := (List.pairwise_cons.mp hm.1).1
      have hyn := (List.pairwise_cons.mp hn.1).1
      have hxy : x.1 = y.1 := by
        rcases Nat.lt_trichotomy x.1 y.1 with hlt | heq | hgt
        · have hz : Memory.read (y :: n) x.1 = 0 := read_below fun z hz => by
            rcases List.mem_cons.mp hz with rfl | hz
            · exact hlt
            · exact Nat.lt_trans hlt (hyn z hz)
          exact absurd (by simpa [read_cons, hz] using h x.1) (hm.2 x (by simp))
        · exact heq
        · have hz : Memory.read (x :: m) y.1 = 0 := read_below fun z hz => by
            rcases List.mem_cons.mp hz with rfl | hz
            · exact hgt
            · exact Nat.lt_trans hgt (hxm z hz)
          exact absurd (by simpa [read_cons, hz] using (h y.1).symm) (hn.2 y (by simp))
      have hw : x.2 = y.2 := by simpa [read_cons, hxy] using h x.1
      have hrest : ∀ a, Memory.read m a = Memory.read n a := fun a => by
        by_cases ha : x.1 = a
        · subst ha
          rw [read_below hxm, read_below (hxy ▸ hyn)]
        · simpa [read_cons, ha, hxy ▸ ha] using h a
      rw [Prod.ext hxy hw, ih (wf_tail hm) (wf_tail hn) hrest]

/-- What `SetBit` writes: the word of its slot with one bit replaced (R106). -/
theorem getLsbD_setBit_word (w : Word) (o : Nat) (v : BitVec 1) (j : Nat) (ho : o < 64) :
    (if v = 1#1 then w ||| bitMask o else w &&& ~~~bitMask o).getLsbD j =
      if j = o then v.getLsbD 0 else w.getLsbD j := by
  have hv : v = 0#1 ∨ v = 1#1 := by revert v; decide
  rcases hv with rfl | rfl <;> by_cases hj : j = o <;> by_cases h64 : j < 64 <;>
    simp_all [bitMask] <;> omega

theorem read_setBit (m : Memory) (i : Nat) (v : BitVec 1) (a j : Nat) :
    ((m.setBit i v).read a).getLsbD j =
      if a = slotOf i ∧ j = offOf i then v.getLsbD 0 else (m.read a).getLsbD j := by
  have ho : offOf i < 64 := Nat.mod_lt _ (by omega)
  simp only [Memory.setBit, read_write]
  by_cases ha : a = slotOf i
  · rw [if_pos ha, getLsbD_setBit_word _ _ _ _ ho]; simp [ha]
  · simp [ha]

theorem getBit_eq (m : Memory) (i : Nat) : m.getBit i = BitVec.ofBool ((m.read (slotOf i)).getLsbD (offOf i)) := by
  apply BitVec.eq_of_getLsbD_eq
  intro j hj
  obtain rfl : j = 0 := by omega
  simp [Memory.getBit]

/-- `SetBit(i, v)` makes position `i` read `v` and leaves every other position alone (R106). -/
theorem getBit_setBit (m : Memory) (i : Nat) (v : BitVec 1) (p : Nat) :
    (m.setBit i v).getBit p = if p = i then v else m.getBit p := by
  rw [getBit_eq, read_setBit, getBit_eq]
  by_cases h : p = i
  · subst h
    have hv : v = 0#1 ∨ v = 1#1 := by revert v; decide
    rcases hv with rfl | rfl <;> simp
  · have : ¬(slotOf p = slotOf i ∧ offOf p = offOf i) := by unfold slotOf offOf; omega
    simp [h, this]

/-- `SetBit` changes no word but that of its slot (R58, R106). -/
theorem read_setBit_other (m : Memory) {i a : Nat} (v : BitVec 1) (h : a ≠ slotOf i) :
    (m.setBit i v).read a = m.read a := by
  simp [Memory.setBit, read_write, h]

theorem wf_setBit {m : Memory} (h : m.wf) (i : Nat) (v : BitVec 1) : (m.setBit i v).wf := wf_write h _ _

theorem mem_setBit {m : Memory} {i : Nat} {v : BitVec 1} {x : Nat × Word} (h : x ∈ m.setBit i v) :
    x.1 = slotOf i ∨ x ∈ m := mem_write h

@[simp] theorem getBit_zeroed (i : Nat) : Memory.zeroed.getBit i = 0#1 := by simp [getBit_eq]

/-- Memories with the same bits read the same words. -/
theorem read_eq_of_getBit_eq {m n : Memory} (h : ∀ i, m.getBit i = n.getBit i) (a : Nat) : m.read a = n.read a := by
  apply BitVec.eq_of_getLsbD_eq
  intro j hj
  have := h (64 * a + j)
  rw [getBit_eq, getBit_eq] at this
  have hs : slotOf (64 * a + j) = a := by unfold slotOf; omega
  have ho : offOf (64 * a + j) = j := by unfold offOf; omega
  rw [hs, ho] at this
  revert this
  cases (m.read a).getLsbD j <;> cases (n.read a).getLsbD j <;> decide

end Sys2Proof.Machine
end

