-- ==== Sys2Proof/Laws/State.lean ====
section
/-! SUPPORT. One lemma per field for each operation that updates the state, and the bits of `ERRFLAGS`. -/

namespace Sys2Proof.Machine

/-! Ending a command successfully leaves the block that the command made. -/

@[simp] theorem respond_toBlock (b : Block) (ds : List Word) : (b.respond ds).toBlock = b := rfl
@[simp] theorem respond_response (b : Block) (ds : List Word) : (b.respond ds).response = .ok ds := rfl

@[simp] theorem raise_mode (b : Block) (e : Err) : (b.raise e).mode = b.mode := rfl
@[simp] theorem raise_numBits (b : Block) (e : Err) : (b.raise e).numBits = b.numBits := rfl
@[simp] theorem raise_k (b : Block) (e : Err) : (b.raise e).k = b.k := rfl
@[simp] theorem raise_elem (b : Block) (e : Err) : (b.raise e).elem = b.elem := rfl
@[simp] theorem raise_errRecord (b : Block) (e : Err) : (b.raise e).errRecord = recordError b.errRecord e := rfl
@[simp] theorem raise_slots (b : Block) (e : Err) : (b.raise e).slots = b.slots := rfl
@[simp] theorem raise_numSlots (b : Block) (e : Err) : (b.raise e).numSlots = b.numSlots := rfl
@[simp] theorem raise_toInteger (b : Block) (e : Err) : (b.raise e).toInteger = b.toInteger := rfl
@[simp] theorem raise_response (b : Block) (e : Err) : (b.raise e).response = .error e := rfl

@[simp] theorem after_toBlock (s : State) (r : Result) : (s.after r).toBlock = r.toBlock := rfl
@[simp] theorem after_commands (s : State) (r : Result) : (s.after r).commands = s.commands := rfl
@[simp] theorem after_responses (s : State) (r : Result) : (s.after r).responses = s.responses ++ [r.response] := rfl

@[simp] theorem present_toBlock (s : State) (w : Word) : (s.present w).toBlock = s.toBlock := rfl
@[simp] theorem present_commands (s : State) (w : Word) : (s.present w).commands = w :: s.commands.tail := rfl
@[simp] theorem present_responses (s : State) (w : Word) : (s.present w).responses = s.responses := rfl

@[simp] theorem reset_toBlock : State.reset.toBlock = Block.reset := rfl

/-- Recording an error sets its bit of `ERRFLAGS` and no other (R193). -/
theorem recordError_append (r : BitVec 7) (e : Err) :
    recordError r e ++ 0#1 = (r ++ 0#1) ||| (1#8 <<< e.code.toNat) := by
  revert r; cases e <;> decide

@[simp] theorem raise_errflags (b : Block) (e : Err) :
    (b.raise e).errflags = b.errflags ||| (1#8 <<< e.code.toNat) := recordError_append _ _

/-- Bit 0 of `ERRFLAGS` is hardwired to 0 (R28). -/
theorem errflags_bit_zero (b : Block) : b.errflags.getLsbD 0 = false := by
  unfold Block.errflags
  generalize b.errRecord = r
  revert r; decide

/-- Raising records something: `ERRFLAGS` is not 0 afterwards. -/
theorem recordError_ne_zero (r : BitVec 7) (e : Err) : recordError r e ≠ 0 := by
  revert r; cases e <;> decide

theorem errflags_eq_zero (b : Block) : b.errflags = 0 ↔ b.errRecord = 0 := by
  unfold Block.errflags
  generalize b.errRecord = r
  revert r; decide

end Sys2Proof.Machine
end

