-- ==== Sys2Proof/Laws/Commands.lean ====
section
/-! SUPPORT. What a command can do, said once: `Effect c i b r` lists the ways in which a command ends, `effect_runCommand`
proves that there is no other, `exec_eq` and `step_eq` reduce `exec` and `step` to the function of block and commands, and
every whole-machine rule follows by cases. Before it, what the loops of BFINS and BFQRY compute. -/

namespace Sys2Proof.Machine
open Sys2Proof.Safety

/-- The bits after setting any positions: 1 at each of them, unchanged elsewhere (R136). -/
theorem getBit_foldl_setBit (f : Nat → Nat) (js : List Nat) (m : Memory) (p : Nat) :
    (js.foldl (fun m j => Memory.setBit m (f j) 1#1) m).getBit p =
      if ∃ j ∈ js, f j = p then 1#1 else m.getBit p := by
  induction js generalizing m with
  | nil => simp
  | cons j js ih =>
    rw [List.foldl_cons, ih, getBit_setBit]
    by_cases h1 : ∃ j' ∈ js, f j' = p
    · have h2 : ∃ j' ∈ j :: js, f j' = p := h1.imp fun j' h => ⟨by simp [h.1], h.2⟩
      rw [if_pos h1, if_pos h2]
    · by_cases h3 : p = f j
      · rw [if_neg h1, if_pos h3, if_pos ⟨j, by simp, h3.symm⟩]
      · have h2 : ¬∃ j' ∈ j :: js, f j' = p := by
          rintro ⟨j', hj', rfl⟩
          rcases List.mem_cons.mp hj' with rfl | hj'
          · exact h3 rfl
          · exact h1 ⟨j', hj', rfl⟩
        rw [if_neg h1, if_neg h3, if_neg h2]

theorem getBit_setPositions (c : Params) (b : Block) (js : List Nat) (p : Nat) :
    (setPositions c b js).getBit p = if ∃ j ∈ js, b.posOf c j = p then 1#1 else b.slots.getBit p :=
  getBit_foldl_setBit _ _ _ _

theorem wf_setPositions (c : Params) {b : Block} (h : b.slots.wf) (js : List Nat) : (setPositions c b js).wf := by
  unfold setPositions
  generalize b.slots = m at h
  induction js generalizing m with
  | nil => exact h
  | cons j js ih => exact ih _ (wf_setBit h _ _)

/-- Slots listed after setting positions: those of the positions, and those listed before. -/
theorem mem_setPositions (c : Params) (b : Block) (js : List Nat) {x : Nat × Word} (h : x ∈ setPositions c b js) :
    (∃ j ∈ js, x.1 = slotOf (b.posOf c j)) ∨ x ∈ b.slots := by
  unfold setPositions at h
  generalize b.slots = m at h ⊢
  induction js generalizing m with
  | nil => exact .inr h
  | cons j js ih =>
    rcases ih _ h with ⟨j', hj', hx⟩ | hx
    · exact .inl ⟨j', by simp [hj'], hx⟩
    · exact (mem_setBit hx).imp (fun hx => ⟨j, by simp, hx⟩) id

/-- The AND of the bits is 1 exactly when every one of them is (R137). -/
theorem andPositions_eq_one (c : Params) (b : Block) (js : List Nat) :
    andPositions c b js = 1#1 ↔ ∀ j ∈ js, b.slots.getBit (b.posOf c j) = 1#1 := by
  have key : ∀ r : BitVec 1, js.foldl (fun r j => r &&& b.slots.getBit (b.posOf c j)) r = 1#1 ↔
      r = 1#1 ∧ ∀ j ∈ js, b.slots.getBit (b.posOf c j) = 1#1 := by
    induction js with
    | nil => simp
    | cons j js ih =>
      intro r
      have hand : ∀ a b : BitVec 1, a &&& b = 1#1 ↔ a = 1#1 ∧ b = 1#1 := by decide
      rw [List.foldl_cons, ih, hand, List.forall_mem_cons, and_assoc]
  simpa [andPositions] using key 1#1

/-- A single bit is 0 or 1. -/
theorem bit_cases (v : BitVec 1) : v = 0#1 ∨ v = 1#1 := by revert v; decide

theorem pos_lt (c : Params) (j : Nat) (e : List Byte) {m : Nat} (h : 0 < m) : pos c j e m < m := Nat.mod_lt _ h

theorem mMax_lt (c : Params) : c.mMax < 2 ^ 32 := by
  have := c.numSlotsMax_range
  unfold Params.mMax
  omega

/-- The ways a command ends: with an error, with an answer and no change, or with the one change its rule gives it. -/
inductive Effect (c : Params) (i : Instr) (b : Block) : Result → Prop
  /-- an error (R193) -/
  | raised (e : Err) : i ≠ .rst → Effect c i b (b.raise e)
  /-- data and no change of state: the reading commands -/
  | answered (ds : List Word) : i.opcode ∈ [Opcode.rdreg, .bget, .btoint, .brdslot, .bfqry, .hpos] →
      ds.length = ndata i.opcode b → Effect c i b (b.respond ds)
  /-- `RST` -/
  | reset : i = .rst → Effect c i b (Block.reset.respond [])
  /-- a successful `BANEW` -/
  | array (n : BitVec 32) : i = .banew n → n ≠ 0 → n.toNat ≤ c.mMax →
      Effect c i b (Block.respond { b with mode := .array, numBits := n, k := 0, slots := Memory.zeroed } [])
  /-- a successful `BFNEW` -/
  | filter (m : BitVec 32) (k : BitVec 16) : i = .bfnew m k → k ≠ 0 → k.toNat ≤ c.kMax → m ≠ 0 → m.toNat ≤ c.mMax →
      Effect c i b (Block.respond { b with mode := .filter, numBits := m, k := k, slots := Memory.zeroed } [])
  /-- a successful `BSET` -/
  | bit (p : BitVec 32) (v : BitVec 1) : i = .bset p v → b.mode = .array → p < b.numBits →
      Effect c i b (Block.respond { b with slots := b.slots.setBit p.toNat v } [])
  /-- a successful `BFINS` -/
  | inserted : i = .bfins → b.mode = .filter →
      Effect c i b (Block.respond { b with slots := setPositions c b (List.range b.k.toNat) } [])
  /-- `ECLR` -/
  | cleared : i = .eclr → Effect c i b (Block.respond { b with elem := [] } [])
  /-- a successful `EPUSH` -/
  | pushed (x : Byte) : i = .epush x → b.elem.length ≠ c.elemMax →
      Effect c i b (Block.respond { b with elem := b.elem ++ [x] } [])

/-- Every command ends in one of the ways of `Effect`. -/
theorem effect_runCommand (c : Params) (i : Instr) (b : Block) : Effect c i b (runCommand c i b) := by
  cases i with
  | rst => exact .reset rfl
  | rdreg r =>
    show Effect c _ b (rdreg c r b)
    unfold rdreg
    split
    · exact .answered _ (by simp [Instr.opcode]) rfl
    · exact .raised _ (by simp)
  | banew n =>
    show Effect c _ b (banew c n b)
    unfold banew
    split
    · exact .raised _ (by simp)
    · split
      · exact .raised _ (by simp)
      · exact .array n rfl ‹_› (by omega)
  | bget p =>
    show Effect c _ b (bget p b)
    unfold bget
    split
    · exact .raised _ (by simp)
    · split
      · exact .raised _ (by simp)
      · exact .answered _ (by simp [Instr.opcode]) rfl
  | bset p v =>
    show Effect c _ b (bset p v b)
    unfold bset
    split
    · exact .raised _ (by simp)
    · split
      · exact .raised _ (by simp)
      · exact .bit p v rfl (by simp_all) (BitVec.not_le.mp ‹_›)
  | btoint =>
    show Effect c _ b (btoint b)
    unfold btoint
    split
    · exact .raised _ (by simp)
    · exact .answered _ (by simp [Instr.opcode]) (by simp [Block.slotWords, ndata, Instr.opcode])
  | brdslot a =>
    show Effect c _ b (brdslot a b)
    unfold brdslot
    split
    · exact .raised _ (by simp)
    · split
      · exact .raised _ (by simp)
      · exact .answered _ (by simp [Instr.opcode]) rfl
  | bfnew m k =>
    show Effect c _ b (bfnew c m k b)
    unfold bfnew
    split
    · exact .raised _ (by simp)
    · split
      · exact .raised _ (by simp)
      · rename_i h1 h2
        exact .filter m k rfl (fun h => h1 (.inl h)) (by omega) (fun h => h2 (.inl h)) (by omega)
  | bfins =>
    show Effect c _ b (bfins c b)
    unfold bfins
    split
    · exact .raised _ (by simp)
    · exact .inserted rfl (by simp_all)
  | bfqry =>
    show Effect c _ b (bfqry c b)
    unfold bfqry
    split
    · exact .raised _ (by simp)
    · exact .answered _ (by simp [Instr.opcode]) rfl
  | eclr => exact .cleared rfl
  | epush x =>
    show Effect c _ b (epush c x b)
    unfold epush
    split
    · exact .raised _ (by simp)
    · exact .pushed x rfl ‹_›
  | hpos j =>
    show Effect c _ b (hpos c j b)
    unfold hpos
    split
    · exact .raised _ (by simp)
    · split
      · exact .raised _ (by simp)
      · exact .answered _ (by simp [Instr.opcode]) rfl

/-- `exec` is the command's function at the parameters of this block; the host's words stay, its responses grow by one. -/
theorem exec_eq (i : Instr) (s : State) : exec i s = .next (s.after (runCommand Config.block i s.toBlock)) := by
  cases i <;> rfl

/-- A step with a word at the port is `runWord` at that word. -/
theorem step_eq {s : State} {w : Word} {rest : List Word} (h : s.commands = w :: rest) :
    step s = .next (State.after { s with commands := rest } (runWord Config.block w s.toBlock)) := by
  unfold step State.fetch runWord
  rw [h]
  cases hd : decode w with
  | command i => simp only [hd]; exact exec_eq _ _
  | illegal why => simp only [hd]

/-- Inversion of `exec`: a next state is the one that some way of `Effect` leaves. -/
theorem effect_of_exec {i : Instr} {s t : State} (h : exec i s = .next t) :
    ∃ r, Effect Config.block i s.toBlock r ∧ t = s.after r := by
  rw [exec_eq] at h
  cases h
  exact ⟨_, effect_runCommand _ _ _, rfl⟩

/-- `BANEW` with a size the block can hold (R101). -/
theorem exec_banew {n : BitVec 32} (s : State) (h : n ≠ 0) (hm : n.toNat ≤ Config.block.mMax) :
    exec (.banew n) s =
      .next (s.after (Block.respond { s.toBlock with mode := .array, numBits := n, k := 0, slots := Memory.zeroed } [])) := by
  simp only [exec, execBanew, banew, if_neg h, if_neg (Nat.not_lt.mpr hm)]

/-- `BSET` in `ARRAY` mode at a position of the array (R103). -/
theorem exec_bset {p : BitVec 32} {s : State} (v : BitVec 1) (h : s.mode = .array) (hp : p < s.numBits) :
    exec (.bset p v) s =
      .next (s.after (Block.respond { s.toBlock with slots := s.slots.setBit p.toNat v } [])) := by
  simp only [exec, execBset, bset, ne_eq, h, not_true, if_false, if_neg (BitVec.not_le.mpr hp)]

/-- `BGET` at a position of the array (R102). -/
theorem exec_bget {p : BitVec 32} {s : State} (h : s.mode ≠ .unconf) (hp : p < s.numBits) :
    exec (.bget p) s = .next (s.after (s.toBlock.respond [(s.slots.getBit p.toNat).setWidth 64])) := by
  simp only [exec, execBget, bget, if_neg h, if_neg (BitVec.not_le.mpr hp)]

/-- `BFNEW` with parameters the block can hold (R135). -/
theorem exec_bfnew {m : BitVec 32} {k : BitVec 16} (s : State) (hk : k ≠ 0) (hkm : k.toNat ≤ Config.block.kMax)
    (hm : m ≠ 0) (hmm : m.toNat ≤ Config.block.mMax) :
    exec (.bfnew m k) s =
      .next (s.after (Block.respond { s.toBlock with mode := .filter, numBits := m, k := k, slots := Memory.zeroed } [])) := by
  simp only [exec, execBfnew, bfnew, hk, hm, false_or, if_neg (Nat.not_lt.mpr hkm), if_neg (Nat.not_lt.mpr hmm)]

/-- `BFINS` in `FILTER` mode (R136). -/
theorem exec_bfins {s : State} (h : s.mode = .filter) :
    exec .bfins s =
      .next (s.after (Block.respond
        { s.toBlock with slots := setPositions Config.block s.toBlock (List.range s.k.toNat) } [])) := by
  simp only [exec, execBfins, bfins, ne_eq, h, not_true, if_false]

/-- `BFQRY` in `FILTER` mode (R137). -/
theorem exec_bfqry {s : State} (h : s.mode = .filter) :
    exec .bfqry s =
      .next (s.after (s.toBlock.respond
        [(andPositions Config.block s.toBlock (List.range s.k.toNat)).setWidth 64])) := by
  simp only [exec, execBfqry, bfqry, ne_eq, h, not_true, if_false]

/-- `EPUSH` with room in the buffer (R166). -/
theorem exec_epush {s : State} (x : Byte) (h : s.elem.length ≠ Config.block.elemMax) :
    exec (.epush x) s = .next (s.after (Block.respond { s.toBlock with elem := s.elem ++ [x] } [])) := by
  simp only [exec, execEpush, epush, if_neg h]

/-- `rep` is the repetition of R14. -/
theorem rep_eq_flatten (e : List Byte) (n : Nat) : rep e n = (List.replicate n e).flatten := by
  induction n with
  | zero => rfl
  | succ n ih => rw [rep, ih, List.replicate_succ', List.flatten_append]; simp

/-- What an error leaves alone, in the terms of the obligations (R193). -/
theorem onlyRaised_raise (s : State) (e : Err) : OnlyRaised s (s.after (s.raise e)) e :=
  ⟨rfl, rfl, rfl, rfl, rfl, rfl, raise_errflags s.toBlock e, rfl⟩

/-- A command whose response is an error did nothing but raise it. -/
theorem eq_raise_of_failed {i : Instr} {s t : State} {e : Err} (h : exec i s = .next t) (hf : Failed s t e) :
    t = s.after (s.raise e) ∧ i ≠ .rst := by
  obtain ⟨r, hr, rfl⟩ := effect_of_exec h
  unfold Failed at hf
  cases hr with
  | raised e' hi => obtain rfl : e' = e := by simpa using hf
                    exact ⟨rfl, hi⟩
  | _ => simp at hf

/-- Inversion of `step`: it idled, or it took a word and ran its command, or it took an illegal word. -/
theorem step_cases {s t : State} (h : step s = .next t) :
    (s.commands = [] ∧ t = s) ∨
      ∃ w rest, s.commands = w :: rest ∧
        ((∃ i, decode w = .command i ∧ exec i { s with commands := rest } = .next t) ∨
          (∃ why, decode w = .illegal why) ∧
            t = State.after { s with commands := rest } (s.raise .illegalCommand)) := by
  unfold step State.fetch at h
  cases hc : s.commands with
  | nil => rw [hc] at h; cases h; exact .inl ⟨rfl, rfl⟩
  | cons w rest =>
    rw [hc] at h
    refine .inr ⟨w, rest, rfl, ?_⟩
    cases hd : decode w with
    | command i => simp only [hd] at h; exact .inl ⟨i, rfl, h⟩
    | illegal why => simp only [hd] at h; cases h; exact .inr ⟨⟨why, rfl⟩, rfl⟩

/-- `Pos(j, ELEM, NUM_BITS)` with the repetition written out (R162, R163). -/
theorem posOf_eq (c : Params) (b : Block) (j : Nat) :
    b.posOf c j = c.digest (List.replicate (j + 1) b.elem).flatten % b.numBits.toNat := by
  rw [Block.posOf, pos, hashJ, rep_eq_flatten]

theorem runList_append {is : List Instr} {s t : State} (js : List Instr) (h : runList is s = .next t) :
    runList (is ++ js) s = runList js t := by
  induction is generalizing s with
  | nil => cases h; rfl
  | cons i is ih =>
    rw [runList, exec_eq] at h
    rw [List.cons_append, runList, exec_eq]
    exact ih h

end Sys2Proof.Machine
end

