-- ==== Sys2Proof/Laws/Encoding.lean ====
section
/-! SUPPORT. A word and its four fields determine each other (R71), and the `match` and `mask` columns of R74 field by
field. -/

namespace Sys2Proof

/-- Bit by bit, where a word's fields lie (R71). -/
theorem getLsbD_toWord (x : Fields) (i : Nat) :
    x.toWord.getLsbD i =
      if i < 32 then x.p.getLsbD i
      else if i < 40 then x.b.getLsbD (i - 32)
      else if i < 56 then x.a.getLsbD (i - 40) else x.opc.getLsbD (i - 56) := by
  have h : (x.opc ++ x.a ++ x.b ++ x.p : BitVec (8 + 16 + 8 + 32)).getLsbD i =
      if i < 32 then x.p.getLsbD i
      else if i < 40 then x.b.getLsbD (i - 32)
      else if i < 56 then x.a.getLsbD (i - 40) else x.opc.getLsbD (i - 56) := by
    simp only [BitVec.getLsbD_append, Nat.sub_sub]
    repeat' split
    all_goals first | rfl | omega
  exact h

@[simp] theorem ofWord_toWord (x : Fields) : Fields.ofWord x.toWord = x := by
  obtain ⟨o, a, b, p⟩ := x
  simp only [Fields.ofWord, Fields.mk.injEq]
  refine ⟨?_, ?_, ?_, ?_⟩ <;>
    · apply BitVec.eq_of_getLsbD_eq
      intro i hi
      rw [BitVec.getLsbD_extractLsb', getLsbD_toWord, decide_eq_true hi, Bool.true_and]
      repeat' split
      all_goals first | omega | (congr 1; omega)

@[simp] theorem toWord_ofWord (w : Word) : (Fields.ofWord w).toWord = w := by
  apply BitVec.eq_of_getLsbD_eq
  intro i hi
  rw [getLsbD_toWord]
  simp only [Fields.ofWord, BitVec.getLsbD_extractLsb']
  repeat' split
  all_goals rw [decide_eq_true (by omega), Bool.true_and]; congr 1; omega

theorem toWord_inj {x y : Fields} : x.toWord = y.toWord ↔ x = y :=
  ⟨fun h => by simpa using congrArg Fields.ofWord h, congrArg _⟩

/-- Masking works field by field. -/
theorem toWord_and (x y : Fields) :
    x.toWord &&& y.toWord = Fields.toWord ⟨x.opc &&& y.opc, x.a &&& y.a, x.b &&& y.b, x.p &&& y.p⟩ := by
  apply BitVec.eq_of_getLsbD_eq
  intro i hi
  rw [BitVec.getLsbD_and]
  simp only [getLsbD_toWord]
  repeat' split
  all_goals simp

/-- The `mask` column of R74, field by field. -/
def Opcode.maskFields : Opcode → Fields
  | .rst | .btoint | .bfins | .bfqry | .eclr => ⟨0xFF, 0xFFFF, 0xFF, 0xFFFFFFFF⟩
  | .banew | .bget | .brdslot => ⟨0xFF, 0xFFFF, 0xFF, 0⟩
  | .bset => ⟨0xFF, 0xFFFF, 0xFE, 0⟩
  | .bfnew => ⟨0xFF, 0, 0xFF, 0⟩
  | .rdreg | .hpos => ⟨0xFF, 0, 0xFF, 0xFFFFFFFF⟩
  | .epush => ⟨0xFF, 0xFFFF, 0, 0xFFFFFFFF⟩

theorem maskBits_eq (o : Opcode) : o.maskBits = o.maskFields.toWord := by cases o <;> rfl

theorem matchBits_eq (o : Opcode) : o.matchBits = Fields.toWord ⟨o.code, 0, 0, 0⟩ := by cases o <;> rfl

/-- A row of R74 selects a word exactly when the fields masked by the row's mask are its opcode and zeros. -/
theorem selects_toWord (o : Opcode) (x : Fields) :
    o.selects x.toWord = true ↔
      x.opc &&& o.maskFields.opc = o.code ∧ x.a &&& o.maskFields.a = 0 ∧ x.b &&& o.maskFields.b = 0 ∧
        x.p &&& o.maskFields.p = 0 := by
  rw [Opcode.selects, beq_iff_eq, maskBits_eq, matchBits_eq, toWord_and, toWord_inj, Fields.mk.injEq]

/-- The opcode column is masked whole in every row. -/
theorem opc_maskFields (o : Opcode) (c : BitVec 8) : c &&& o.maskFields.opc = c := by
  have h : o.maskFields.opc = BitVec.allOnes 8 := by cases o <;> rfl
  rw [h, BitVec.and_allOnes]

/-- No two rows have the same opcode number (R74). -/
theorem code_inj {o o' : Opcode} (h : o.code = o'.code) : o = o' := by
  revert h; cases o <;> cases o' <;> decide

@[simp] theorem ofCode_code (o : Opcode) : Opcode.ofCode o.code = some o := by cases o <;> rfl

theorem code_of_ofCode {c : BitVec 8} {o : Opcode} (h : Opcode.ofCode c = some o) : c = o.code := by
  unfold Opcode.ofCode at h
  have := List.find?_some h
  exact (beq_iff_eq.mp this).symm

/-- The must-be-zero fields of R72 are the operand bits that the mask of R74 keeps. -/
theorem unusedZero_iff (o : Opcode) (x : Fields) :
    o.format.unusedZero x = true ↔
      x.a &&& o.maskFields.a = 0 ∧ x.b &&& o.maskFields.b = 0 ∧ x.p &&& o.maskFields.p = 0 := by
  obtain ⟨c, a, b, p⟩ := x
  have ha : a &&& 0xFFFF = a := BitVec.and_allOnes
  have hb : b &&& 0xFF = b := BitVec.and_allOnes
  have hp : p &&& 0xFFFFFFFF = p := BitVec.and_allOnes
  have hv : b.extractLsb' 1 7 = 0 ↔ b &&& 0xFE = 0 := by revert b; decide
  cases o <;>
    simp only [Opcode.format, Format.unusedZero, Opcode.maskFields, Bool.and_eq_true, beq_iff_eq, ha, hb, hp, hv,
      and_assoc] <;> simp

theorem opcode_assemble (o : Opcode) (x : Fields) : (o.assemble x).opcode = o := by cases o <;> rfl

theorem opc_fields (i : Instr) : i.fields.opc = i.opcode.code := by cases i <;> rfl

end Sys2Proof
end

