-- ==== Sys2Proof/Laws/Integer.lean ====
section
/-! SUPPORT. The bits of the integer projection (R54): bit `i` of `ToInteger` is bit `i mod 64` of slot `i div 64`, for the
slots of the array, and sums of distinct powers of two. -/

namespace Sys2Proof.Machine

/-- The bits of words laid side by side, 64 apart. -/
theorem testBit_sum_words (f : Nat → Word) (n i : Nat) :
    (((List.range n).map fun a => (f a).toNat * 2 ^ (64 * a)).sum).testBit i =
      (decide (i < 64 * n) && (f (i / 64)).getLsbD (i % 64)) := by
  induction n generalizing i with
  | zero => simp
  | succ n ih =>
    have hlt : ((List.range n).map fun a => (f a).toNat * 2 ^ (64 * a)).sum < 2 ^ (64 * n) := by
      apply Nat.lt_pow_two_of_testBit
      intro j hj
      rw [ih, decide_eq_false (by omega), Bool.false_and]
    rw [List.range_succ, List.map_append, List.sum_append, List.map_singleton, List.sum_singleton, Nat.mul_comm,
      Nat.add_comm, Nat.testBit_two_pow_mul_add _ hlt, ih]
    split
    · rename_i h
      rw [decide_eq_true h, decide_eq_true (show i < 64 * (n + 1) by omega)]
    · rename_i h
      show (f n).getLsbD (i - 64 * n) = _
      by_cases h2 : i < 64 * (n + 1)
      · rw [decide_eq_true h2, show i / 64 = n by omega, show i % 64 = i - 64 * n by omega, Bool.true_and]
      · rw [decide_eq_false h2, Bool.false_and]
        exact BitVec.getLsbD_of_ge _ _ (by omega)

/-- Bit `i` of `ToInteger` (R54, R55). -/
theorem testBit_toInteger (b : Block) (i : Nat) :
    b.toInteger.testBit i = (decide (i < 64 * b.numSlots) && (b.slots.read (slotOf i)).getLsbD (offOf i)) :=
  testBit_sum_words _ _ _

/-- The bits of a sum of distinct powers of two. -/
theorem testBit_sum_powers (b : Nat → Prop) [DecidablePred b] (n i : Nat) :
    (((List.range n).map fun j => if b j then 2 ^ j else 0).sum).testBit i = (decide (i < n) && decide (b i)) := by
  induction n generalizing i with
  | zero => simp
  | succ n ih =>
    have hlt : ((List.range n).map fun j => if b j then 2 ^ j else 0).sum < 2 ^ n := by
      apply Nat.lt_pow_two_of_testBit
      intro j hj
      rw [ih, decide_eq_false (by omega), Bool.false_and]
    have hbit : (if b n then 2 ^ n else 0) = 2 ^ n * (if b n then 1 else 0) := by split <;> simp
    rw [List.range_succ, List.map_append, List.sum_append, List.map_singleton, List.sum_singleton, hbit, Nat.add_comm,
      Nat.testBit_two_pow_mul_add _ hlt, ih]
    split
    · rename_i h
      simp [h, show i < n + 1 by omega]
    · rename_i h
      by_cases h2 : i = n
      · subst h2
        by_cases hb : b i <;> simp [hb]
      · have h3 : ¬i < n + 1 := by omega
        have h4 : i - n ≠ 0 := by omega
        by_cases hb : b n <;> simp [hb, h3, Nat.testBit_eq_decide_div_mod_eq, Nat.div_eq_of_lt (Nat.one_lt_two_pow h4)]

end Sys2Proof.Machine
end

