-- ==== Sys2Proof/Laws/PerInstr.lean ====
section
/-! SUPPORT. One fact per command, as syntax: the word a command is encoded to is selected by the command's own row of R74
and by no other. -/

namespace Sys2Proof.Laws.EncodedRow

/-- The rows of R74 that select the word of `i` are exactly the row of `i`. -/
def Statement (i : Instr) : Prop := ∀ o : Opcode, o.selects (encode i) = true ↔ o = i.opcode

/-- It is enough that the unused fields of the command's own format are zero. -/
theorem of_unused {i : Instr} (hc : i.fields.opc = i.opcode.code) (ha : i.fields.a &&& i.opcode.maskFields.a = 0)
    (hb : i.fields.b &&& i.opcode.maskFields.b = 0) (hp : i.fields.p &&& i.opcode.maskFields.p = 0) : Statement i := by
  intro o
  rw [encode, selects_toWord, opc_maskFields, hc]
  constructor
  · exact fun h => (code_inj h.1).symm
  · rintro rfl
    exact ⟨rfl, ha, hb, hp⟩

theorem rst : Statement .rst := by
  apply of_unused <;> simp [Instr.fields, Instr.opcode, Opcode.maskFields]

theorem rdreg (r : BitVec 16) : Statement (.rdreg r) := by
  apply of_unused <;> simp [Instr.fields, Instr.opcode, Opcode.maskFields]

theorem banew (n : BitVec 32) : Statement (.banew n) := by
  apply of_unused <;> simp [Instr.fields, Instr.opcode, Opcode.maskFields]

theorem bget (p : BitVec 32) : Statement (.bget p) := by
  apply of_unused <;> simp [Instr.fields, Instr.opcode, Opcode.maskFields]

theorem bset (p : BitVec 32) (v : BitVec 1) : Statement (.bset p v) := by
  obtain rfl | rfl : v = 0#1 ∨ v = 1#1 := by revert v; decide
  all_goals apply of_unused <;> simp [Instr.fields, Instr.opcode, Opcode.maskFields]

theorem btoint : Statement .btoint := by
  apply of_unused <;> simp [Instr.fields, Instr.opcode, Opcode.maskFields]

theorem brdslot (s : BitVec 32) : Statement (.brdslot s) := by
  apply of_unused <;> simp [Instr.fields, Instr.opcode, Opcode.maskFields]

theorem bfnew (m : BitVec 32) (k : BitVec 16) : Statement (.bfnew m k) := by
  apply of_unused <;> simp [Instr.fields, Instr.opcode, Opcode.maskFields]

theorem bfins : Statement .bfins := by
  apply of_unused <;> simp [Instr.fields, Instr.opcode, Opcode.maskFields]

theorem bfqry : Statement .bfqry := by
  apply of_unused <;> simp [Instr.fields, Instr.opcode, Opcode.maskFields]

theorem eclr : Statement .eclr := by
  apply of_unused <;> simp [Instr.fields, Instr.opcode, Opcode.maskFields]

theorem epush (b : Byte) : Statement (.epush b) := by
  apply of_unused <;> simp [Instr.fields, Instr.opcode, Opcode.maskFields]

theorem hpos (j : BitVec 16) : Statement (.hpos j) := by
  apply of_unused <;> simp [Instr.fields, Instr.opcode, Opcode.maskFields]

end Sys2Proof.Laws.EncodedRow
end

