-- ==== Sys2Proof/Tests/Slice0.lean ====
section
/-! SUPPORT. The model's own tests. Expected values come from the spec: its worked encodings (R82), its test vectors
(95_test_vectors.md, named V-... and P...) and the examples of the command rules. Vectors with concrete positions run the
commands with the fixture parameters of 95_test_vectors.md (defaults of R8 and TOY31, D27), which no other file uses. The
last part shows, for every obligation with hypotheses, a state and operands that meet them. -/

namespace Sys2Proof.Tests
open Sys2Proof.Machine Sys2Proof.Safety

/-! ## Decoding: words written out from 30_encoding.md -/

/-- V-EN-1, all rows. -/
theorem test_decode_legal_words :
    ([0x0100000000000000, 0x0200050000000000, 0x02FFFF0000000000, 0x1000000000000082, 0x10000000FFFFFFFF,
      0x110000000000003F, 0x11000000FFFFFFFF, 0x1200000100000040, 0x1200000000000040, 0x1300000000000000,
      0x1400000000000002, 0x200004000000000F, 0x20000400000001E0, 0x20FFFF00FFFFFFFF, 0x2100000000000000,
      0x2200000000000000, 0x3000000000000000, 0x3100006300000000, 0x310000FF00000000, 0x3100000000000000,
      0x3200030000000000] : List Word).map decode =
    ([.rst, .rdreg 5, .rdreg 65535, .banew 130, .banew 4294967295, .bget 63, .bget 4294967295, .bset 64 1, .bset 64 0,
      .btoint, .brdslot 2, .bfnew 15 4, .bfnew 480 4, .bfnew 4294967295 65535, .bfins, .bfqry, .eclr, .epush 0x63,
      .epush 255, .epush 0, .hpos 3] : List Instr).map .command := by decide

/-- V-EN-2: words with an opcode that is no command. -/
theorem test_decode_unknown_opcodes :
    (([0x00, 0xFF, 0x03, 0x0F, 0x15, 0x23, 0x33] : List (BitVec 8)).all fun c =>
      decode (Fields.toWord ⟨c, 0, 0, 0⟩) == .illegal (.unknownOpcode c)) = true := by decide

/-- V-EN-2: words with a 1 in a must-be-zero field, for every format. -/
theorem test_decode_unused_fields :
    ([0x0100000000000001, 0x0200050000000001, 0x0200050100000000, 0x1000010000000082, 0x1000000100000082,
      0x1100010000000000, 0x1200000200000040, 0x1200000300000040, 0x1200010100000040, 0x1300000000000001,
      0x200004010000000F, 0x2100000000000001, 0x2200000100000000, 0x3000010000000000, 0x3100006300000001,
      0x3101006300000000, 0x3200030100000000, 0x3200030000000001] : List Word).map decode =
    ([.rst, .rdreg, .rdreg, .banew, .banew, .bget, .bset, .bset, .bset, .btoint, .bfnew, .bfins, .bfqry, .eclr, .epush,
      .epush, .hpos, .hpos] : List Opcode).map fun o => .illegal (.unusedFieldNotZero o) := by decide

/-- The same words, and one for every row of R74, refused by the check of WellFormed.lean. -/
theorem test_wellFormed_refuses :
    (([0x0000000000000000, 0xFFFFFFFFFFFFFFFF, 0x0300000000000000, 0x1500000000000000, 0x2300000000000000,
      0x3300000000000000, 0x0100000000000001, 0x0200050000000001, 0x0200050100000000, 0x1000010000000082,
      0x1000000100000082, 0x1100010000000000, 0x1200000200000040, 0x1200010100000040, 0x1300000000000001,
      0x1400000100000000, 0x200004010000000F, 0x2100000000000001, 0x2200000100000000, 0x3000010000000000,
      0x3100006300000001, 0x3101006300000000, 0x3200030100000000, 0x3200030000000001] : List Word).all
      fun w => !legalWord w) = true := by decide

/-- And a legal word for every row accepted by it. -/
theorem test_wellFormed_accepts :
    (([0x0100000000000000, 0x0200050000000000, 0x1000000000000082, 0x110000000000003F, 0x1200000100000040,
      0x1300000000000000, 0x1400000000000002, 0x200004000000000F, 0x2100000000000000, 0x2200000000000000,
      0x3000000000000000, 0x3100006300000000, 0x3200030000000000] : List Word).all legalWord) = true := by decide

/-- V-EN-3: status beats of BTOINT on three slots, of BGET, of BSET, of an IndexOutOfRange and of an illegal word. -/
theorem test_statusBeat :
    [Response.ok [0, 0, 0], .ok [1], .ok [], .error .indexOutOfRange, .error .illegalCommand].map Response.statusBeat =
      [0x0000000300000000, 0x0000000100000000, 0x0000000000000000, 0x0000000000000003, 0x0000000000000004] := by decide

/-! ## The assembler (R80, R81); a text that is not ASCII is refused -/

theorem test_assemble_examples :
    assembleLine ['B', 'S', 'E', 'T', ' ', '6', '4', ',', ' ', '1', ' ', ';', 'x'] = some [.bset 64 1] ∧
    assembleLine ['B', 'A', 'N', 'E', 'W', ' ', '0', 'x', '8', '2'] = some [.banew 130] ∧
    assembleLine ['E', 'P', 'U', 'S', 'H', ' ', Char.ofNat 39, 'c', Char.ofNat 39] = some [.epush 0x63] ∧
    assembleLine ['B', 'S', 'E', 'T', ' ', '6', '4', ',', '2'] = none := by decide

theorem test_assemble_pseudo :
    assembleLine ['E', 'L', 'O', 'A', 'D', ' ', Char.ofNat 34, 'c', 'a', 't', Char.ofNat 34] =
      some [.eclr, .epush 0x63, .epush 0x61, .epush 0x74] ∧
    assembleLine ['B', 'C', 'L', 'R', ' ', '6', '3'] = some [.bset 63 0] ∧
    assembleLine ['E', 'L', 'O', 'A', 'D', ' ', Char.ofNat 34, Char.ofNat 233, Char.ofNat 34] = none := by decide

/-! ## The commands, with the fixture parameters -/

/-- TOY31 (95_test_vectors.md section 2.1). -/
def toy31 (e : List Byte) : Nat := e.foldl (fun h b => (h * 31 + b.toNat) % 2 ^ 32) 0

theorem toy31_lt (e : List Byte) : toy31 e < 2 ^ 32 := by
  have key : ∀ (e : List Byte) (h : Nat), h < 2 ^ 32 → e.foldl (fun h b => (h * 31 + b.toNat) % 2 ^ 32) h < 2 ^ 32 := by
    intro e
    induction e with
    | nil => exact fun _ h => h
    | cons b e ih => exact fun _ _ => ih _ (Nat.mod_lt _ (by decide))
  exact key e 0 (by decide)

/-- The defaults of R8 with TOY31. -/
def fixture : Params where
  numSlotsMax := 1024
  kMax := 64
  elemMax := 256
  digestBits := 32
  digest := toy31
  numSlotsMax_range := by decide
  kMax_range := by decide
  elemMax_range := by decide
  digestBits_pos := by decide
  digest_lt := toy31_lt

def cat : List Byte := [0x63, 0x61, 0x74]
def dog : List Byte := [0x64, 0x6F, 0x67]
def fish : List Byte := [0x66, 0x69, 0x73, 0x68]

/-- An array of `n` bits with the given slots. -/
def arrayBlock (n : BitVec 32) (m : Memory) : Block := { Block.reset with mode := .array, numBits := n, slots := m }

/-- A filter of `m` bits and `k` hash functions with the given slots and element. -/
def filterBlock (m : BitVec 32) (k : BitVec 16) (mem : Memory) (e : List Byte) : Block :=
  { Block.reset with mode := .filter, numBits := m, k := k, slots := mem, elem := e }

/-- The slots after step 4 of V-BA-3. -/
def boundarySlots : Memory := [(0, 0x8000000000000001), (1, 1), (2, 2)]

/-- Table of section 2.1: positions of "cat" for `m = 15` and of "dog" for `m = 130`. -/
theorem test_pos_fixture :
    (List.range 4).map (fun j => pos fixture j cat 15) = [12, 9, 11, 7] ∧
    (List.range 3).map (fun j => pos fixture j dog 130) = [64, 108, 62] := by decide

/-- V-SY-3: RST from the end of P2 clears ERRFLAGS and everything else. -/
theorem test_rst : rst { filterBlock 15 4 [(0, 0x7AD5)] fish with errRecord := 0x54 } =
    Block.respond Block.reset [] := by decide

/-- V-SY-1. -/
theorem test_rdreg : ([0, 1, 2, 3, 4, 5, 8, 9, 10, 11] : List (BitVec 16)).map
      (fun r => (rdreg fixture r (filterBlock 15 4 [] [1])).response) =
    ([2, 15, 1, 4, 1, 0, 1024, 64, 256, 32] : List Word).map fun v => .ok [v] := by decide

/-- V-SY-1: numbers that name no register; the error sets ERRFLAGS[7]. -/
theorem test_rdreg_bad : (([6, 7, 12, 65535] : List (BitVec 16)).all fun r =>
    let t := rdreg fixture r Block.reset
    t.response == .error .badOperand && t.errflags == 0x80) = true := by decide

/-- V-BA-1: sizes that are refused. -/
theorem test_banew_refuses : (([0, 65537, 4294967295] : List (BitVec 32)).all fun n =>
    let t := banew fixture n (arrayBlock 70 [(0, 1)])
    t.response == .error .invalidSize && t.errflags == 0x04 && t.numBits == 70 && t.slots == [(0, 1)]) = true := by
  decide

/-- V-BA-1 and V-BA-9: sizes that are accepted, and the old bits are gone. -/
theorem test_banew : (([(1, 1), (63, 1), (64, 1), (65, 2), (128, 2), (130, 3), (65536, 1024)] :
    List (BitVec 32 × Nat)).all fun x =>
    let t := banew fixture x.1 (filterBlock 15 4 [(0, 0x7AD5)] cat)
    t.mode == .array && t.numBits == x.1 && t.numSlots == x.2 && t.k == 0 && t.slots == [] && t.elem == cat) = true := by
  decide

/-- V-BA-3 steps 5 to 12. -/
theorem test_bget : ([0, 1, 62, 63, 64, 65, 128, 129] : List (BitVec 32)).map
      (fun p => (bget p (arrayBlock 130 boundarySlots)).response) =
    ([1, 0, 0, 1, 1, 0, 0, 1] : List Word).map fun v => .ok [v] := by decide

/-- V-BA-4: padding and beyond are out of range. -/
theorem test_bget_range : (([130, 191, 4294967295] : List (BitVec 32)).all fun p =>
    (bget p (arrayBlock 130 boundarySlots)).response == .error .indexOutOfRange) = true := by decide

/-- V-BA-3 steps 2 and 3: the top bit of slot 0, then offset 0 of slot 1. -/
theorem test_bset_boundary :
    (bset 63 1 (arrayBlock 130 [(0, 1)])).slots = [(0, 0x8000000000000001)] ∧
    (bset 64 1 (arrayBlock 130 [(0, 0x8000000000000001)])).slots = [(0, 0x8000000000000001), (1, 1)] := by decide

/-- V-BA-6: clearing; V-EX-3: refused in FILTER mode. -/
theorem test_bset_clear :
    (bset 63 0 (arrayBlock 130 boundarySlots)).slots = [(0, 1), (1, 1), (2, 2)] ∧
    (bset 200 1 (filterBlock 15 4 [] [])).response = .error .wrongMode := by decide

/-- V-BA-5: the beats and the integer. -/
theorem test_btoint :
    (btoint (arrayBlock 130 boundarySlots)).response = .ok [0x8000000000000001, 1, 2] ∧
    (arrayBlock 130 boundarySlots).toInteger = 680564733841876926954419330974100750337 := by decide

/-- V-BA-4 and V-BA-5. -/
theorem test_brdslot :
    (brdslot 2 (arrayBlock 130 boundarySlots)).response = .ok [2] ∧
    (brdslot 3 (arrayBlock 130 boundarySlots)).response = .error .indexOutOfRange := by decide

/-- V-BF-1: accepted sizes. -/
theorem test_bfnew : (([(15, 4), (1, 1), (15, 64), (65536, 1)] : List (BitVec 32 × BitVec 16)).all fun x =>
    let t := bfnew fixture x.1 x.2 (arrayBlock 70 [(0, 1)])
    t.mode == .filter && t.numBits == x.1 && t.k == x.2 && t.slots == [] && t.response == .ok []) = true := by decide

/-- V-BF-1: refused operands; the check on `k` wins. -/
theorem test_bfnew_refuses : ([(15, 0), (15, 65), (0, 4), (65537, 1), (0, 0), (65537, 0), (4294967295, 65535)] :
    List (BitVec 32 × BitVec 16)).map (fun x => (bfnew fixture x.1 x.2 Block.reset).errflags) =
    [0x02, 0x02, 0x04, 0x04, 0x02, 0x02, 0x02] := by decide

/-- V-BF-4 and V-BF-8. -/
theorem test_bfins :
    (bfins fixture (filterBlock 15 4 [] cat)).slots = [(0, 0x1A80)] ∧
    (bfins fixture (filterBlock 15 4 [(0, 0x1A80)] cat)).slots = [(0, 0x1A80)] ∧
    (bfins fixture (filterBlock 130 3 [(1, 0x1001000000400000)] dog)).slots =
      [(0, 0x4000000000000000), (1, 0x1001100000400001)] := by decide

/-- V-BF-5: "cat" is in, "fish" is not; V-EX-2: refused in ARRAY mode. -/
theorem test_bfqry :
    (bfqry fixture (filterBlock 15 4 [(0, 0x7AD5)] cat)).response = .ok [1] ∧
    (bfqry fixture (filterBlock 15 4 [(0, 0x7AD5)] fish)).response = .ok [0] ∧
    (bfqry fixture (arrayBlock 8 [])).response = .error .wrongMode := by decide

/-- V-HP-6. -/
theorem test_eclr : (eclr (filterBlock 15 4 [(0, 0x1A80)] cat)).elem = [] ∧
    (eclr (filterBlock 15 4 [(0, 0x1A80)] cat)).slots = [(0, 0x1A80)] := by decide

/-- V-HP-6: a zero byte lengthens the element; V-HP-7 with `ELEM_MAX = 4`. -/
theorem test_epush :
    (epush fixture 0 Block.reset).elem = [0] ∧ (epush fixture 0 Block.reset).elen = 1 ∧
    (let t := epush { fixture with elemMax := 4, elemMax_range := by decide } 5 { Block.reset with elem := [1, 2, 3, 4] }
     t.elem = [1, 2, 3, 4] ∧ t.response = .error .elementOverflow ∧ t.errflags = 0x40) := by decide

/-- V-HP-1 and V-HP-2. -/
theorem test_hpos : ([0, 1, 2, 3, 4, 65535] : List (BitVec 16)).map
      (fun j => (hpos fixture j (filterBlock 15 4 [] cat)).response) =
    [.ok [12], .ok [9], .ok [11], .ok [7], .error .badOperand, .error .badOperand] := by decide

/-! ## Sequences of commands, and steps of the machine itself -/

/-- The examples of R101 and R103 in one run: `BANEW 130`, `BSET 64, 1`, and a word that R82 calls illegal. -/
theorem test_runWords : runWords fixture [0x1000000000000082, 0x1200000100000040, 0x2100000000000001] Block.reset =
    ({ arrayBlock 130 [(1, 1)] with errRecord := 0x08 }, [.ok [], .ok [], .error .illegalCommand]) := by decide

/-- What a step leads to satisfies `f`. -/
def stepsTo (s : State) (f : State → Bool) : Bool :=
  match step s with
  | .next t => f t
  | .fault _ => false
  | .refused _ => false

/-- V-EX-4 (a): a malformed BGET word from reset is IllegalCommand, not WrongMode. -/
theorem test_step_illegal : stepsTo (State.reset.withFetchWord 64 0x1100010000000000)
    (fun t => t == { State.reset with errRecord := 0x08, responses := [.error .illegalCommand] }) = true := by decide

/-- V-EX-1: BGET from reset is WrongMode, and the word is taken from the port. -/
theorem test_step_wrongMode : stepsTo { State.reset with commands := [0x1100000000000000, 0x3000000000000000] }
    (fun t => t == { State.reset with
      errRecord := 0x10, commands := [0x3000000000000000], responses := [.error .wrongMode] }) = true := by decide

/-! ## Witnesses: every obligation with hypotheses has a state and operands that meet them -/

theorem le_mMax : 64 ≤ Config.block.mMax := by
  have := Config.block.numSlotsMax_range
  unfold Params.mMax
  omega

theorem le_kMax : 1 ≤ Config.block.kMax := Config.block.kMax_range.1

/-- The largest array this block can hold, as an operand. -/
def largest : BitVec 32 := BitVec.ofNat 32 Config.block.mMax

theorem largest_toNat : largest.toNat = Config.block.mMax := by
  have := mMax_lt Config.block
  simp only [largest, BitVec.toNat_ofNat]
  omega

theorem tooLarge_toNat : (BitVec.ofNat 32 (Config.block.mMax + 1)).toNat = Config.block.mMax + 1 := by
  have := Config.block.numSlotsMax_range
  have h : Config.block.mMax = 64 * Config.block.numSlotsMax := rfl
  simp only [BitVec.toNat_ofNat]
  omega

/-- The block in an array of `n` bits, with no command presented and no response given. -/
def arrayOf (n : BitVec 32) (m : Memory) : State := { State.reset with toBlock := arrayBlock n m }

/-- The block in a filter of `m` bits and `k` hash functions, likewise. -/
def filterOf (m : BitVec 32) (k : BitVec 16) (mem : Memory) (e : List Byte) : State :=
  { State.reset with toBlock := filterBlock m k mem e }

/-- The smallest array and the smallest filter meet the invariants of R32, whatever the parameters. -/
theorem inv_array : StateInv Config.block (arrayOf 1 []) where
  unconf := by simp [arrayOf, arrayBlock]
  array := fun _ => ⟨by decide, Nat.le_trans (by decide) le_mMax, rfl⟩
  filter := by simp [arrayOf, arrayBlock]
  numSlots := rfl
  padding := by simp [arrayOf, arrayBlock]
  elem := Nat.zero_le _
  errflagsZero := errflags_bit_zero _
  modeNot3 := by decide

theorem inv_filter : StateInv Config.block (filterOf 1 1 [] []) where
  unconf := by simp [filterOf, filterBlock, filterBlock]
  array := by simp [filterOf, filterBlock, filterBlock]
  filter := fun _ => ⟨by decide, Nat.le_trans (by decide) le_mMax, by decide, le_kMax⟩
  numSlots := rfl
  padding := by simp [filterOf, filterBlock, filterBlock]
  elem := Nat.zero_le _
  errflagsZero := errflags_bit_zero _
  modeNot3 := by decide

theorem canonical_filter (k : BitVec 16) : Canonical (filterOf 1 k [] []) :=
  ⟨wf_zeroed, by simp [filterOf, filterBlock, filterBlock]⟩

/-- From reset, after a command that fails and after one that succeeds. -/
def afterBget0 : State := State.reset.after (State.reset.raise .wrongMode)

def afterEclr : State := State.reset.after (State.reset.respond [])

theorem bget_fails : exec (.bget 0) State.reset = .next afterBget0 ∧
    Failed State.reset afterBget0 .wrongMode := ⟨rfl, rfl⟩

theorem eclr_succeeds : exec .eclr State.reset = .next afterEclr ∧
    Succeeded State.reset afterEclr [] := ⟨rfl, rfl⟩

theorem witness_EncodeOfDecodeIsTheWord : decode 0x1000000000000082 = .command (.banew 130) := by decide

theorem witness_TableRowsSelectTheirCommands :
    (0x1200000100000040 : Word) &&& Opcode.bset.maskBits = Opcode.bset.matchBits := by decide

theorem witness_IllegalWordOnlyRaises : ({ State.reset with commands := [0] } : State).commands = (0 : Word) :: [] ∧
    ∀ o : Opcode, (0 : Word) &&& o.maskBits ≠ o.matchBits := ⟨rfl, by intro o; cases o <;> decide⟩

theorem witness_StepRunsTheDecodedCommand :
    ({ State.reset with commands := [0x3000000000000000] } : State).commands = 0x3000000000000000 :: [] ∧
    decode 0x3000000000000000 = .command .eclr ∧ decodeTableWord 64 0x3000000000000000 = some .eclr := by decide

theorem witness_StepIdlesWithoutACommand : State.reset.commands = [] := rfl

theorem witness_EveryCommandGivesOneResponse :
    ({ State.reset with commands := [0] } : State).commands = (0 : Word) :: [] ∧
    (Response.ok [1]).data.length = 1 ∧ 1 < 2 ^ 32 := ⟨rfl, rfl, by norm_num⟩

theorem witness_DataBeatsPerCommand : exec .eclr State.reset = .next afterEclr ∧
    Succeeded State.reset afterEclr [] := eclr_succeeds

/-- Last clause, at both ends of each range. -/
theorem witness_RdregReadsEveryRegister :
    ∀ r ∈ [(6 : BitVec 16), 7, 12, 65535], r.toNat = 6 ∨ r.toNat = 7 ∨ 12 ≤ r.toNat := by simp

/-- Refused: 0 and `M_MAX + 1`. -/
theorem witness_BanewConstructsAZeroedArray_refused :
    Config.block.mMax < (BitVec.ofNat 32 (Config.block.mMax + 1)).toNat := by rw [tooLarge_toNat]; omega

/-- Accepted: 1 and `M_MAX`. -/
theorem witness_BanewConstructsAZeroedArray :
    ((1 : BitVec 32) ≠ 0 ∧ (1 : BitVec 32).toNat ≤ Config.block.mMax) ∧
    (largest ≠ 0 ∧ largest.toNat ≤ Config.block.mMax) := by
  have h := le_mMax
  refine ⟨⟨by decide, Nat.le_trans (by decide) h⟩, fun h0 => ?_, largest_toNat.le⟩
  have := largest_toNat
  rw [h0] at this
  simp at this
  omega

/-- Each clause: no array; first position out of range; last position in range. -/
theorem witness_BgetAnswersTheBit :
    State.reset.mode = .unconf ∧
    ((arrayOf 130 []).mode ≠ .unconf ∧ (arrayOf 130 []).numBits ≤ 130) ∧
    ((arrayOf 130 []).mode ≠ .unconf ∧ (129 : BitVec 32) < (arrayOf 130 []).numBits) := by decide

theorem witness_BsetWritesOneBit :
    (filterOf 15 4 [] []).mode ≠ .array ∧
    ((arrayOf 130 []).mode = .array ∧ (arrayOf 130 []).numBits ≤ 130) ∧
    ((arrayOf 130 []).mode = .array ∧ (129 : BitVec 32) < (arrayOf 130 []).numBits) := by decide

theorem witness_BtointAnswersTheSlots : State.reset.mode = .unconf ∧ (arrayOf 1 []).mode ≠ .unconf := by decide

theorem witness_BrdslotAnswersTheSlot :
    State.reset.mode = .unconf ∧
    ((arrayOf 65 []).mode ≠ .unconf ∧ (arrayOf 65 []).numSlots ≤ (2 : BitVec 32).toNat) ∧
    ((arrayOf 65 []).mode ≠ .unconf ∧ (1 : BitVec 32).toNat < (arrayOf 65 []).numSlots) := by decide

theorem witness_SetBitWritesOneWord : (1 : Nat) ≠ 63 / 64 ∧ (64 : Nat) ≠ 63 := by decide

theorem witness_SlotBoundaryDecomposition : 63 ≤ 63 := by decide

/-- Three writes to the two ends of an array of one full slot, read back at its last position. -/
theorem witness_ReadingBackTheLastWrite :
    (64 : BitVec 32) ≠ 0 ∧ (64 : BitVec 32).toNat ≤ Config.block.mMax ∧
    (∀ w ∈ [((63 : BitVec 32), (1 : BitVec 1)), (0, 1), (63, 0)], w.1 < (64 : BitVec 32)) ∧ (63 : BitVec 32) < 64 :=
  ⟨by decide, le_mMax, by simp, by decide⟩

theorem witness_ProjectionIsTheSumOfSetBits :
    (64 : BitVec 32) ≠ 0 ∧ (64 : BitVec 32).toNat ≤ Config.block.mMax ∧
    (∀ w ∈ [((63 : BitVec 32), (1 : BitVec 1)), (0, 1), (63, 0)], w.1 < (64 : BitVec 32)) :=
  ⟨by decide, le_mMax, by simp⟩

theorem witness_ProjectionReproducesTheBits :
    StateInv Config.block (arrayOf 1 []) ∧ (arrayOf 1 []).mode ≠ .unconf ∧ (0 : BitVec 32) < (arrayOf 1 []).numBits ∧
    (arrayOf 1 []).numBits.toNat ≤ 1 := ⟨inv_array, by decide, by decide, by decide⟩

theorem witness_ProjectionIsBelowTwoToTheNumBits : StateInv Config.block (arrayOf 1 []) := inv_array

theorem witness_BitArrayFrame :
    (exec (.bset 0 1) (arrayOf 1 []) = .next ((arrayOf 1 []).after ((arrayOf 1 [(0, 1)]).respond [])) ∧
      ∀ e, ¬Failed (arrayOf 1 []) ((arrayOf 1 []).after ((arrayOf 1 [(0, 1)]).respond [])) e) ∧
    ((Instr.bget 0).opcode ∈ [Opcode.bget, .btoint, .brdslot] ∧
      exec (.bget 0) (arrayOf 1 []) = .next ((arrayOf 1 []).after ((arrayOf 1 []).respond [0])) ∧
      ∀ e, ¬Failed (arrayOf 1 []) ((arrayOf 1 []).after ((arrayOf 1 []).respond [0])) e) ∧
    ((Instr.bget 0).opcode ∈ [Opcode.banew, .bget, .bset, .btoint, .brdslot] ∧
      exec (.bget 0) State.reset = .next afterBget0 ∧
      Failed State.reset afterBget0 .wrongMode) :=
  ⟨⟨rfl, by simp [Failed]⟩, ⟨by decide, rfl, by simp [Failed]⟩, by decide, bget_fails⟩

/-- Refused sizes at their boundaries. -/
theorem witness_BfnewConstructsAZeroedFilter_refused :
    ((0 : BitVec 16) = 0 ∨ Config.block.kMax < (0 : BitVec 16).toNat) ∧
    ((1 : BitVec 16) ≠ 0 ∧ (1 : BitVec 16).toNat ≤ Config.block.kMax ∧
      ((0 : BitVec 32) = 0 ∨ Config.block.mMax < (0 : BitVec 32).toNat)) ∧
    Config.block.mMax < (BitVec.ofNat 32 (Config.block.mMax + 1)).toNat :=
  ⟨.inl rfl, ⟨by decide, le_kMax, .inl rfl⟩, by rw [tooLarge_toNat]; omega⟩

/-- The largest filter: `M_MAX` bits and `K_MAX` hash functions. -/
theorem witness_BfnewConstructsAZeroedFilter :
    let k := BitVec.ofNat 16 Config.block.kMax
    k ≠ 0 ∧ k.toNat ≤ Config.block.kMax ∧ largest ≠ 0 ∧ largest.toNat ≤ Config.block.mMax := by
  have hk := Config.block.kMax_range
  have ht : (BitVec.ofNat 16 Config.block.kMax).toNat = Config.block.kMax := by
    simp only [BitVec.toNat_ofNat]; omega
  refine ⟨fun h0 => ?_, ht.le, witness_BanewConstructsAZeroedArray.2⟩
  rw [h0] at ht
  simp at ht
  omega

theorem witness_BfinsSetsThePositions :
    (arrayOf 1 []).mode ≠ .filter ∧ (filterOf 1 1 [] []).mode = .filter ∧ (filterOf 1 1 [] []).numBits ≠ 0 := by decide

/-- With one bit every position is 0: both answers occur. -/
theorem witness_BfqryAnswersTheAnd :
    (arrayOf 1 []).mode ≠ .filter ∧ (filterOf 1 1 [(0, 1)] []).mode = .filter ∧
    (filterOf 1 1 [(0, 1)] []).numBits ≠ 0 ∧
    (∀ j < (filterOf 1 1 [(0, 1)] []).k.toNat,
      let p := Config.block.digest (List.replicate (j + 1) []).flatten % (filterOf 1 1 [(0, 1)] []).numBits.toNat
      ((filterOf 1 1 [(0, 1)] []).slots.read (p / 64)).getLsbD (p % 64) = true) ∧
    (∃ j < (filterOf 1 1 [] []).k.toNat,
      let p := Config.block.digest (List.replicate (j + 1) []).flatten % (filterOf 1 1 [] []).numBits.toNat
      ((filterOf 1 1 [] []).slots.read (p / 64)).getLsbD (p % 64) = false) := by
  refine ⟨by decide, rfl, by decide, fun j _ => ?_, 0, by decide, ?_⟩ <;> simp [filterOf, filterBlock, Nat.mod_one, read_cons]

theorem witness_FreshFilterAnswersZero :
    (1 : BitVec 16) ≠ 0 ∧ (1 : BitVec 16).toNat ≤ Config.block.kMax ∧ (1 : BitVec 32) ≠ 0 ∧
    (1 : BitVec 32).toNat ≤ Config.block.mMax :=
  ⟨by decide, le_kMax, by decide, Nat.le_trans (by decide) le_mMax⟩

/-- A chain of lanes `0 .. n`, a tree over `n + 1` lanes. -/
def chain : Nat → AndTree
  | 0 => .lane 0
  | n + 1 => .both (chain n) (.lane (n + 1))

theorem lanes_chain (n : Nat) : (chain n).lanes = List.range (n + 1) := by
  induction n with
  | zero => rfl
  | succ n ih => rw [List.range_succ, ← ih]; rfl

theorem witness_MembershipEngineAgreesWithTheLoop :
    (filterOf 1 1 [] []).mode = .filter ∧ (filterOf 1 1 [] []).k.toNat ≤ Config.block.kMax ∧
    (chain (Config.block.kMax - 1)).lanes.Perm (List.range Config.block.kMax) := by
  refine ⟨rfl, le_kMax, ?_⟩
  rw [lanes_chain, Nat.sub_add_cancel le_kMax]

/-- The element is inserted, and a BFQRY comes before the query. -/
theorem witness_NoFalseNegatives :
    ∃ t u, (filterOf 1 1 [] []).mode = .filter ∧ exec .bfins (filterOf 1 1 [] []) = .next t ∧ NoRebuild t u ∧
      u.elem = (filterOf 1 1 [] []).elem :=
  ⟨_, _, rfl, exec_bfins rfl, .step .bfqry (.refl _) (exec_bfqry rfl) (by simp [Instr.opcode, rebuilds]), rfl⟩

theorem witness_InsertionIsIdempotent : (filterOf 1 1 [] []).mode = .filter ∧ Canonical (filterOf 1 1 [] []) :=
  ⟨rfl, canonical_filter 1⟩

theorem witness_FilterBitsOnlyGrow :
    ∃ t, (filterOf 1 1 [(0, 1)] []).mode = .filter ∧ NoRebuild (filterOf 1 1 [(0, 1)] []) t ∧
      (filterOf 1 1 [(0, 1)] []).slots.getBit 0 = 1 :=
  ⟨_, rfl, .step .bfins (.refl _) (exec_bfins rfl) (by simp [Instr.opcode, rebuilds]), by decide⟩

theorem witness_InsertionOrderDoesNotMatter :
    (filterOf 1 2 [] []).mode = .filter ∧ Canonical (filterOf 1 2 [] []) ∧
    [1, 0].Perm (List.range (filterOf 1 2 [] []).k.toNat) ∧ [cat, dog].Perm [dog, cat] :=
  ⟨rfl, canonical_filter 2, by decide, by decide⟩

theorem witness_PositionsAreInRange :
    (1 : Nat) ≤ 1 ∧ StateInv Config.block (filterOf 1 1 [] []) ∧ (∃ t, exec .bfins (filterOf 1 1 [] []) = .next t) ∧
    (filterOf 1 1 [] []).numBits.toNat ≤ 1 ∧ ∃ t, exec .bfqry (filterOf 1 1 [] []) = .next t :=
  ⟨by decide, inv_filter, ⟨_, exec_bfins rfl⟩, by decide, ⟨_, exec_bfqry rfl⟩⟩

/-- A full buffer, and one with room for exactly one more byte. -/
theorem witness_EpushAppendsTheByte :
    ({ State.reset with elem := List.replicate Config.block.elemMax 0 } : State).elem.length = Config.block.elemMax ∧
    ({ State.reset with elem := List.replicate (Config.block.elemMax - 1) 0 } : State).elem.length ≠
      Config.block.elemMax := by
  have := Config.block.elemMax_range
  refine ⟨List.length_replicate, ?_⟩
  rw [List.length_replicate]
  omega

theorem witness_HposAnswersThePosition :
    (arrayOf 1 []).mode ≠ .filter ∧
    ((filterOf 15 4 [] []).mode = .filter ∧ (filterOf 15 4 [] []).k ≤ 4) ∧
    ((filterOf 15 4 [] []).mode = .filter ∧ (3 : BitVec 16) < (filterOf 15 4 [] []).k ∧
      (filterOf 15 4 [] []).numBits ≠ 0) := by decide

/-- R168 (d): "aa" once is "a" twice. -/
theorem witness_DegeneratePositions : 1 ≤ 1 ∧ 1 ≤ 2 ∧ rep [0x61, 0x61] 1 = rep [0x61] 2 := by decide

theorem witness_ElementChangesOnlyByItsCommands :
    exec (.bget 0) State.reset = .next afterBget0 ∧
    (Instr.bget 0).opcode ∉ [Opcode.eclr, .epush, .rst] := ⟨rfl, by decide⟩

/-- An element that just fits, and one that is a byte too long. -/
theorem witness_LoadingAnElement :
    (List.replicate Config.block.elemMax (0 : Byte)).length ≤ Config.block.elemMax ∧
    Config.block.elemMax < (List.replicate (Config.block.elemMax + 1) (0 : Byte)).length := by
  simp

theorem witness_RaisingChangesOnlyItsFlag :
    exec (.bget 0) State.reset = .next afterBget0 ∧
    Failed State.reset afterBget0 .wrongMode := bget_fails

theorem witness_ErrorRecordIsSticky :
    (exec .eclr State.reset = .next afterEclr ∧ Instr.eclr ≠ .rst ∧
      Succeeded State.reset afterEclr []) ∧
    exec .eclr afterBget0 = .next (State.after afterBget0 (afterBget0.respond [])) ∧
    afterBget0.errflags.getLsbD 5 = true := ⟨⟨rfl, by decide, rfl⟩, rfl, by decide⟩

theorem witness_FailedCommandLeavesNoTrace :
    exec (.bget 0) State.reset = .next afterBget0 ∧
    Failed State.reset afterBget0 .wrongMode ∧ Instr.eclr ≠ .rdreg 5 ∧ Instr.eclr ≠ .rst :=
  ⟨bget_fails.1, bget_fails.2, by decide, by decide⟩

theorem witness_FailedCommandFailsAgain :
    exec (.bget 0) State.reset = .next afterBget0 ∧
    Failed State.reset afterBget0 .wrongMode := bget_fails

theorem witness_ModesAcceptTheirCommands :
    accepted (Instr.bget 0).opcode State.reset.mode = false ∧
    (accepted Instr.eclr.opcode State.reset.mode = true ∧ exec .eclr State.reset = .next afterEclr) ∧
    ∃ t, exec (.banew 1) State.reset = .next t ∧ t.mode ≠ State.reset.mode :=
  ⟨by decide, ⟨by decide, rfl⟩, _, exec_banew _ (by decide) (Nat.le_trans (by decide) le_mMax), by
    simp [Block.reset]⟩

theorem witness_SizeChangesOnlyByConstruction :
    ∃ t, exec (.banew 1) State.reset = .next t ∧ (t.numBits ≠ State.reset.numBits ∨ t.k ≠ State.reset.k) :=
  ⟨_, exec_banew _ (by decide) (Nat.le_trans (by decide) le_mMax), .inl (by simp [Block.reset])⟩

theorem witness_SlotsChangeOnlyByTheirCommands :
    exec .eclr State.reset = .next afterEclr ∧
    Instr.eclr.opcode ∉ [Opcode.banew, .bfnew, .rst, .bset, .bfins] := ⟨rfl, by decide⟩

theorem witness_InspectionChangesNothing :
    Instr.btoint.opcode ∈ [Opcode.rdreg, .bget, .brdslot, .btoint, .hpos, .bfqry] := by decide

theorem witness_StepKeepsTheInvariants :
    StateInv Config.block (filterOf 1 1 [] []) ∧ step (filterOf 1 1 [] []) = .next (filterOf 1 1 [] []) ∧
    Canonical (filterOf 1 1 [] []) := ⟨inv_filter, rfl, canonical_filter 1⟩

/-- A run of one command that fails. -/
theorem witness_GoneWrongExactlyWhenFlagged :
    ∃ t, ({ State.reset with commands := [0] } : State).responses = [] ∧
      ({ State.reset with commands := [0] } : State).errflags = 0 ∧
      RunWithoutRst { State.reset with commands := [0] } t ∧ t.errflags ≠ 0 :=
  ⟨State.reset.after (State.reset.raise .illegalCommand), rfl, by decide,
    .step (.refl _) (by rintro w rest h; cases h; decide) rfl, by decide⟩

theorem witness_StepsAreTheFunctionOfBlockAndCommands :
    ({ State.reset with commands := [0x3000000000000000, 0] } : State).commands = 0x3000000000000000 :: [0] := rfl

theorem witness_SizingRoundsUp : (1 : ℕ) ≤ 1 ∧ (0 : ℝ) < 1 / 2 ∧ (1 / 2 : ℝ) < 1 := by norm_num

/-- From the formulas of R130 and R131, by hand: for capacity 1 and error rate 0.9, `m = ceil(0.219...) = 1` and
`k = ceil(0.693...) = 1`. -/
theorem sizing_nine_tenths : Sizing.computeM 1 (9 / 10) = 1 ∧ Sizing.computeK 1 1 = 1 := by
  have ha := Real.log_two_gt_d9
  have hb := Real.log_two_lt_d9
  have hl := Real.one_sub_inv_le_log_of_pos (show (0 : ℝ) < 9 / 10 by norm_num)
  have hn : Real.log (9 / 10) < 0 := Real.log_neg (by norm_num) (by norm_num)
  constructor
  · rw [Sizing.computeM, Nat.ceil_eq_iff (by norm_num)]
    constructor
    · rw [lt_div_iff₀ (by positivity)]; push_cast; linarith
    · rw [div_le_iff₀ (by positivity)]; push_cast; norm_num at hl; nlinarith
  · rw [Sizing.computeK, Nat.ceil_eq_iff (by norm_num)]
    push_cast
    constructor <;> linarith

/-- Refused parameters; and a construction that every instance of the block can hold. -/
theorem witness_HostConstructionIsSound :
    ¬Sizing.ValidParameters 0 (1 / 2) ∧ Sizing.hostNew 1 (9 / 10) = .issue (.bfnew 1 1) ∧
    (1 : BitVec 32).toNat ≤ Config.block.mMax ∧ (1 : BitVec 16).toNat ≤ Config.block.kMax := by
  refine ⟨fun h => absurd h.1 (by decide), ?_, Nat.le_trans (by decide) le_mMax, le_kMax⟩
  have hv : Sizing.ValidParameters 1 (9 / 10) := ⟨le_refl _, by norm_num, by norm_num⟩
  rw [Sizing.hostNew, if_pos hv]
  simp only [Int.toNat_one, sizing_nine_tenths.1, sizing_nine_tenths.2]
  rfl

end Sys2Proof.Tests
end

section
/-! PROOFS. The reset state of R34, reached by a hardware reset and by `RST` (O11). -/

namespace Sys2Proof.Machine
open Sys2Proof.Safety

/-! The CAP registers are hardwired: what they read depends on the parameters alone (R29). -/

@[simp] theorem readReg_capSlots (c : Params) (b : Block) : b.readReg c 8 = some (BitVec.ofNat 64 c.numSlotsMax) := rfl
@[simp] theorem readReg_capK (c : Params) (b : Block) : b.readReg c 9 = some (BitVec.ofNat 64 c.kMax) := rfl
@[simp] theorem readReg_capElem (c : Params) (b : Block) : b.readReg c 10 = some (BitVec.ofNat 64 c.elemMax) := rfl
@[simp] theorem readReg_capDigest (c : Params) (b : Block) :
    b.readReg c 11 = some (BitVec.ofNat 64 (min c.digestBits (2 ^ 32 - 1))) := rfl

/-- `RST` discards the block, whatever it was, and answers with no data (R180). -/
theorem exec_rst (s : State) : exec .rst s = .next (s.after (Block.reset.respond [])) := rfl

/-- R34 speaks of the block only: what the host still presents and has received plays no part. -/
theorem isResetState_of_toBlock_eq {t : State} (h : t.toBlock = Block.reset) : IsResetState t where
  mode := congrArg Block.mode h
  numBits := congrArg Block.numBits h
  numSlots := congrArg Block.numSlots h
  k := congrArg Block.k h
  elen := congrArg Block.elen h
  errflags := congrArg Block.errflags h
  slotWords := congrArg Block.slotWords h
  elem := congrArg Block.elem h
  capSlots := readReg_capSlots _ _
  capK := readReg_capK _ _
  capElem := readReg_capElem _ _
  capDigest := readReg_capDigest _ _

/-- Settles O11: the block of `State.reset` and the block that `RST` leaves are both `Block.reset`. -/
theorem resetAndRstGiveTheResetState : Obligations.ResetAndRstGiveTheResetState := by
  refine ⟨isResetState_of_toBlock_eq reset_toBlock, fun s => ⟨_, exec_rst s, ?_, after_commands _ _, ?_⟩⟩
  · exact isResetState_of_toBlock_eq (by rw [after_toBlock, respond_toBlock])
  · exact after_responses _ _

end Sys2Proof.Machine
end

section
/-! PROOFS. The integer projection and the bits of the array (R55, R111; O23): a position of the array lies in one of its
slots, and a position that is not lies either in the padding of the last slot, which (I5) of R32 keeps 0, or beyond the slots. -/

namespace Sys2Proof.Machine
open Sys2Proof.Safety

/-- The slots hold the whole array (R25). -/
theorem numBits_le_slots (b : Block) : b.numBits.toNat ≤ 64 * b.numSlots := by
  unfold Block.numSlots
  omega

/-- Inside the slots, `GetBit` and `ToInteger` show the same bit (R55, R106). -/
theorem getBit_eq_testBit_toInteger {b : Block} {i : Nat} (hi : i < 64 * b.numSlots) :
    b.slots.getBit i = BitVec.ofBool (b.toInteger.testBit i) := by
  rw [getBit_eq, testBit_toInteger, decide_eq_true hi, Bool.true_and]

/-- A position of the slots that is not one of the array is a padding bit: it lies in the last slot, at or above the offset
`NUM_BITS mod 64`, which is then not 0 (R32, I5). -/
theorem padding_position {b : Block} {i : Nat} (hge : b.numBits.toNat ≤ i) (hlt : i < 64 * b.numSlots) :
    b.numBits.toNat % 64 ≠ 0 ∧ slotOf i = b.numSlots - 1 ∧ b.numBits.toNat % 64 ≤ offOf i := by
  unfold Block.numSlots slotOf offOf at *
  omega

/-- No bit of `ToInteger` at or above `NUM_BITS` is 1 (R55, R111). -/
theorem testBit_toInteger_of_numBits_le {c : Params} {s : State} (h : StateInv c s) {i : Nat}
    (hge : s.numBits.toNat ≤ i) : s.toInteger.testBit i = false := by
  rw [testBit_toInteger]
  by_cases hlt : i < 64 * s.numSlots
  · obtain ⟨hr, hslot, hoff⟩ := padding_position hge hlt
    rw [hslot, h.padding hr (offOf i) hoff (Nat.mod_lt _ (by decide)), Bool.and_false]
  · rw [decide_eq_false hlt, Bool.false_and]

/-- A bit widened to a word is the word that holds its number. -/
theorem setWidth_ofBool (v : Bool) : (BitVec.ofBool v).setWidth 64 = BitVec.ofNat 64 v.toNat := by
  cases v <;> rfl

/-- Settles O23: `BGET` reads a bit inside the slots, where it is the bit of `ToInteger`; the bits from `NUM_BITS` on are
padding or lie beyond the slots. -/
theorem projectionReproducesTheBits : Obligations.ProjectionReproducesTheBits := by
  intro s hinv hmode
  refine ⟨fun i hi => ?_, fun i hi => ?_⟩
  · have hslots : i.toNat < 64 * s.numSlots := Nat.lt_of_lt_of_le hi (numBits_le_slots s.toBlock)
    rw [Answers, exec_bget hmode hi, getBit_eq_testBit_toInteger hslots, setWidth_ofBool, Nat.toNat_testBit]
    rfl
  · rw [← Nat.toNat_testBit, testBit_toInteger_of_numBits_le hinv hi, Bool.toNat_false]

end Sys2Proof.Machine
end

section
/-! PROOFS. The decoder and the table of R74 (O4, O5), and the worked encodings of R82 (O1): the decoder is written from the
fields and formats of R71 and R72, and it gives a command of a row exactly when the `match` and `mask` columns select the
word. -/

namespace Sys2Proof

/-- The check `W & mask = match` of R74 and the reading of the fields by R71 and R72 are the same condition. -/
theorem selects_iff_ofWord (o : Opcode) (w : Word) :
    o.selects w = true ↔ (Fields.ofWord w).opc = o.code ∧ o.format.unusedZero (Fields.ofWord w) = true := by
  rw [← toWord_ofWord w, selects_toWord, opc_maskFields, ofWord_toWord, unusedZero_iff]

/-- The rows of R74 are disjoint: each has its own opcode number. -/
theorem eq_of_selects {o o' : Opcode} {w : Word} (h : o.selects w = true) (h' : o'.selects w = true) : o = o' :=
  code_inj (((selects_iff_ofWord o w).mp h).1.symm.trans ((selects_iff_ofWord o' w).mp h').1)

/-- A word that a row selects decodes to that row's command, its operands read from the fields. -/
theorem decode_of_selects {o : Opcode} {w : Word} (h : o.selects w = true) :
    decode w = .command (o.assemble (Fields.ofWord w)) := by
  obtain ⟨hcode, hunused⟩ := (selects_iff_ofWord o w).mp h
  rw [decode, decodeFields, hcode, ofCode_code]
  exact if_pos hunused

/-- A word that decodes to a command is selected by the command's row. -/
theorem selects_of_decode {w : Word} {i : Instr} (h : decode w = .command i) : i.opcode.selects w = true := by
  unfold decode decodeFields at h
  split at h
  · cases h
  · rename_i o hcode
    split at h
    · rename_i hunused
      cases h
      rw [opcode_assemble]
      exact (selects_iff_ofWord o w).mpr ⟨code_of_ofCode hcode, hunused⟩
    · cases h

/-- A word decodes to a command of a row exactly when the row selects it (R74). -/
theorem exists_decode_command_iff (w : Word) (o : Opcode) :
    (∃ i, decode w = .command i ∧ i.opcode = o) ↔ o.selects w = true := by
  constructor
  · rintro ⟨i, hi, rfl⟩
    exact selects_of_decode hi
  · exact fun h => ⟨_, decode_of_selects h, opcode_assemble o _⟩

/-- `Opcode.selects` is the condition that R74 writes. -/
theorem selects_iff (o : Opcode) (w : Word) : o.selects w = true ↔ w &&& o.maskBits = o.matchBits := beq_iff_eq

/-- A word is illegal exactly when no row of R74 selects it (R75). -/
theorem exists_decode_illegal_iff (w : Word) :
    (∃ why, decode w = .illegal why) ↔ ∀ o : Opcode, ¬o.selects w = true := by
  constructor
  · rintro ⟨why, hwhy⟩ o ho
    rw [decode_of_selects ho] at hwhy
    cases hwhy
  · intro hnone
    cases hd : decode w with
    | command i => exact absurd (selects_of_decode hd) (hnone i.opcode)
    | illegal why => exact ⟨why, rfl⟩

/-- Settles O4: the columns are read off the definitions, and `W & mask = match` is `Opcode.selects`. -/
theorem tableRowsSelectTheirCommands : Obligations.TableRowsSelectTheirCommands := by
  refine ⟨rfl, fun w o => ?_, fun w o o' h h' => ?_⟩
  · rw [exists_decode_command_iff, selects_iff]
  · exact eq_of_selects ((selects_iff o w).mpr h) ((selects_iff o' w).mpr h')

/-- Settles O1: the words are written out, so decoder and encoder are run on each. -/
theorem specEncodingExamples : Obligations.SpecEncodingExamples := by
  refine ⟨?_, ?_, ?_, ?_, ?_⟩ <;> decide

end Sys2Proof

namespace Sys2Proof.Machine
open Sys2Proof.Safety

/-- A step on an illegal word raises `IllegalCommand`, whatever the reason and the mode (R75, R195). -/
theorem step_of_illegal {s : State} {w : Word} {rest : List Word} {why : Illegal} (hc : s.commands = w :: rest)
    (hd : decode w = .illegal why) :
    step s = .next (State.after { s with commands := rest } (s.raise .illegalCommand)) := by
  rw [step_eq hc, runWord, hd]
  rfl

/-- Settles O5: a word that no row selects decodes to an illegal one, and what raising an error leaves alone is
`onlyRaised_raise`. -/
theorem illegalWordOnlyRaises : Obligations.IllegalWordOnlyRaises := by
  have illegal_iff (w : Word) : (∃ why, decode w = .illegal why) ↔ ∀ o : Opcode, w &&& o.maskBits ≠ o.matchBits := by
    simp only [exists_decode_illegal_iff, selects_iff, ne_eq]
  refine ⟨illegal_iff, fun s w rest hc hnone => ?_⟩
  obtain ⟨why, hwhy⟩ := (illegal_iff w).mpr hnone
  exact ⟨_, step_of_illegal hc hwhy, onlyRaised_raise { s with commands := rest } .illegalCommand⟩

end Sys2Proof.Machine
end

section
/-! PROOFS. The one response of every command word and its beats (R76, R77; O8). -/

namespace Sys2Proof.Machine

/-- `NUM_SLOTS` is far below `2^32`, because `NUM_BITS` has 32 bits (R25). -/
theorem numSlots_lt (b : Block) : b.numSlots < 2 ^ 32 := by
  have := b.numBits.isLt
  unfold Block.numSlots
  omega

/-- No row of R77 gives `2^32` data beats: `BTOINT` gives one per slot, every other command at most one. -/
theorem ndata_lt (o : Opcode) (b : Block) : Safety.ndata o b < 2 ^ 32 := by
  cases o with
  | btoint => exact numSlots_lt b
  | _ => simp [Safety.ndata]

/-- However a command ends, its response has fewer than `2^32` data beats. -/
theorem data_length_lt_of_effect {c : Params} {i : Instr} {b : Block} {r : Result} (h : Effect c i b r) :
    r.response.data.length < 2 ^ 32 := by
  cases h with
  | answered ds _ hlen => exact hlen ▸ ndata_lt i.opcode b
  | _ => exact Nat.two_pow_pos 32

/-- The bound holds for every command word, legal or not: an error carries no data (R77). -/
theorem data_length_runWord_lt (c : Params) (w : Word) (b : Block) :
    (runWord c w b).response.data.length < 2 ^ 32 := by
  unfold runWord
  split
  · exact data_length_lt_of_effect (effect_runCommand c _ b)
  · exact Nat.two_pow_pos 32

/-! The three fields of the status beat (R76). -/

theorem statusBeat_err (r : Response) : r.statusBeat.extractLsb' 0 4 = r.err :=
  BitVec.extractLsb'_append_eq_right

theorem statusBeat_zeros (r : Response) : r.statusBeat.extractLsb' 4 28 = 0 :=
  (BitVec.extractLsb'_append_eq_of_le (by decide)).trans BitVec.extractLsb'_append_eq_right

theorem statusBeat_ndata (r : Response) : r.statusBeat.extractLsb' 32 32 = BitVec.ofNat 32 r.data.length :=
  (BitVec.extractLsb'_append_eq_of_le (by decide)).trans BitVec.extractLsb'_append_eq_left

/-- Settles O8: a step is `runWord`, whose one response is appended; the beats are read off the layout of R76. -/
theorem everyCommandGivesOneResponse : Obligations.EveryCommandGivesOneResponse := by
  refine ⟨fun s w rest hc => ?_, fun r => ⟨rfl, statusBeat_err r, statusBeat_zeros r, fun hlt => ?_⟩,
    fun _ => ⟨rfl, rfl⟩, fun _ => ⟨rfl, rfl⟩⟩
  · exact ⟨_, _, step_eq hc, after_commands _ _, after_responses _ _, data_length_runWord_lt _ w s.toBlock⟩
  · rw [statusBeat_ndata, BitVec.toNat_ofNat, Nat.mod_eq_of_lt hlt]

end Sys2Proof.Machine
end

section
/-! PROOFS. Reading and writing positions (R51, R106, R107; O19, O20), and the commands of the packed bit-array one by one
(R101 to R105, R109, R112; O14 to O18, O25, O48). -/

namespace Sys2Proof.Machine
open Sys2Proof.Safety

/-! A command is its function of the block (`exec_eq`), so what it answers or raises is said of that function. -/

/-- A command whose function raises `e` raises `e` in the terms of the obligations (R193). -/
theorem raises_of_runCommand {i : Instr} {s : State} {e : Err} (h : runCommand Config.block i s.toBlock = s.raise e) :
    Raises i s e :=
  ⟨_, (exec_eq i s).trans (by rw [h]), onlyRaised_raise s e⟩

/-- A command whose function responds with `ds` on the block as it is answers `ds` and changes nothing. -/
theorem answers_of_runCommand {i : Instr} {s : State} {ds : List Word}
    (h : runCommand Config.block i s.toBlock = s.respond ds) : Answers i s ds :=
  (exec_eq i s).trans (by rw [h]; rfl)

/-- A single bit is 1 exactly when its lowest bit is. -/
theorem getLsbD_zero_eq_beq_one (v : BitVec 1) : v.getLsbD 0 = (v == 1) := by
  revert v; decide

/-- A bit in the form in which R102 and R106 read it. -/
theorem ofBool_eq_ite (v : Bool) : BitVec.ofBool v = if v then 1 else 0 := by
  cases v <;> rfl

/-- Settles O19: the mask is applied by `Memory.setBit` itself to the word of the slot, and the bits follow from
`getBit_setBit`. -/
theorem setBitWritesOneWord : Obligations.SetBitWritesOneWord := by
  intro m i v
  refine ⟨?_, ?_, fun a ha => read_setBit_other m v ha, ?_, fun p hp => ?_, by decide⟩
  · rw [getBit_eq, ofBool_eq_ite, slotOf, offOf]
  · exact (read_write m (slotOf i) _ (slotOf i)).trans (if_pos rfl)
  · rw [getBit_setBit, if_pos rfl]
  · rw [getBit_setBit, if_neg hp]

/-- Settles O20: division by 64 and its remainder are the two halves of the bits of a position. -/
theorem slotBoundaryDecomposition : Obligations.SlotBoundaryDecomposition := by
  refine ⟨fun q o ho => ?_, fun i => ?_, rfl, rfl, rfl, rfl⟩
  · unfold slotOf offOf
    omega
  · have := i.isLt
    rw [BitVec.extractLsb'_toNat, BitVec.extractLsb'_toNat, Nat.shiftRight_eq_div_pow, Nat.shiftRight_zero, slotOf, offOf]
    omega

/-- Settles O14: the two refusals are the two checks of R101, and `exec_banew` is the construction. -/
theorem banewConstructsAZeroedArray : Obligations.BanewConstructsAZeroedArray := by
  intro s n
  refine ⟨fun h => raises_of_runCommand (if_pos h), fun h => raises_of_runCommand ?_, fun h hm => ?_⟩
  · have hn : n ≠ 0 := by
      rintro rfl
      exact Nat.not_lt_zero _ h
    exact (if_neg hn).trans (if_pos h)
  · exact ⟨_, exec_banew s h hm, rfl, rfl, rfl, rfl, fun a _ => read_zeroed a, rfl, rfl, rfl, rfl⟩

/-- Settles O15: the checks of R102 in their order, then the bit that `GetBit` reads. -/
theorem bgetAnswersTheBit : Obligations.BgetAnswersTheBit := by
  intro s p
  refine ⟨fun h => raises_of_runCommand (if_pos h),
    fun h hp => raises_of_runCommand ((if_neg h).trans (if_pos hp)), fun h hp => ?_⟩
  rw [Answers, exec_bget h hp, getBit_eq, ofBool_eq_ite, apply_ite (BitVec.setWidth 64)]
  rfl

/-- Settles O16: the checks of R103 in their order, then `read_setBit` for the bits and `exec_bset` for the rest. -/
theorem bsetWritesOneBit : Obligations.BsetWritesOneBit := by
  intro s p v
  refine ⟨fun h => raises_of_runCommand (if_pos h),
    fun h hp => raises_of_runCommand ((if_neg (not_not_intro h)).trans (if_pos hp)), fun h hp => ?_⟩
  refine ⟨_, exec_bset v h hp, fun a o => ?_, ⟨rfl, rfl, rfl, rfl, rfl⟩, rfl, rfl⟩
  rw [← getLsbD_zero_eq_beq_one]
  exact read_setBit s.slots p.toNat v a o

/-- Words read base `2^64`, the first one least significant, are their sum at multiples of 64 bits (R54, R104). -/
theorem foldr_words_eq_sum (f : Nat → Word) (n : Nat) :
    ((List.range n).map f).foldr (fun d r => d.toNat + 2 ^ 64 * r) 0 =
      ((List.range n).map fun a => (f a).toNat * 2 ^ (64 * a)).sum := by
  induction n generalizing f with
  | zero => rfl
  | succ n ih =>
    have hshift (a : Nat) : (f (a + 1)).toNat * 2 ^ (64 * (a + 1)) = 2 ^ 64 * ((f (a + 1)).toNat * 2 ^ (64 * a)) := by
      ring
    have htail := ih fun a => f (a + 1)
    simp only [List.range_succ_eq_map, List.map_cons, List.map_map, List.foldr_cons, List.sum_cons, Function.comp_def,
      Nat.succ_eq_add_one, hshift, List.sum_map_mul_left, htail, Nat.mul_zero, pow_zero, Nat.mul_one]

/-- Settles O17: the beats are `Block.slotWords`. -/
theorem btointAnswersTheSlots : Obligations.BtointAnswersTheSlots := by
  refine fun s => ⟨fun h => raises_of_runCommand (if_pos h), fun h => ⟨s.slotWords, ?_, ?_, fun a ha => ?_, ?_⟩⟩
  · exact answers_of_runCommand (if_neg h)
  · rw [Block.slotWords, List.length_map, List.length_range, Block.numSlots]
  · simp only [Block.slotWords, List.getElem_map, List.getElem_range]
  · exact foldr_words_eq_sum s.slots.read s.numSlots

/-- Settles O18: the checks of R105 in their order, then the slot. -/
theorem brdslotAnswersTheSlot : Obligations.BrdslotAnswersTheSlot := by
  intro s a
  exact ⟨fun h => raises_of_runCommand (if_pos h),
    fun h ha => raises_of_runCommand ((if_neg h).trans (if_pos ha)),
    fun h ha => answers_of_runCommand ((if_neg h).trans (if_neg (Nat.not_le.mpr ha)))⟩

/-- A `BSET` that does not fail is the write of its bit (R103). -/
theorem eq_setBit_of_not_failed {p : BitVec 32} {v : BitVec 1} {s t : State} (h : exec (.bset p v) s = .next t)
    (hok : ∀ e, ¬Failed s t e) :
    t = s.after (Block.respond { s.toBlock with slots := s.slots.setBit p.toNat v } []) := by
  obtain ⟨r, hr, rfl⟩ := effect_of_exec h
  cases hr with
  | raised e _ => exact absurd rfl (hok e)
  | answered ds hi _ => simp [Instr.opcode] at hi
  | bit p' v' hi _ _ => cases hi; rfl
  | _ => contradiction

/-- A reading command that does not fail leaves the block as it is (R36). -/
theorem toBlock_eq_of_answered {i : Instr} {s t : State}
    (hi : i.opcode ∈ [Opcode.rdreg, .bget, .btoint, .brdslot, .bfqry, .hpos]) (h : exec i s = .next t)
    (hok : ∀ e, ¬Failed s t e) : t.toBlock = s.toBlock ∧ t.commands = s.commands := by
  obtain ⟨r, hr, rfl⟩ := effect_of_exec h
  cases hr with
  | raised e _ => exact absurd rfl (hok e)
  | answered ds _ _ => exact ⟨rfl, rfl⟩
  | _ => subst i; simp [Instr.opcode] at hi

/-- The registers are views of the block (R22). -/
theorem sameRegisters_of_toBlock_eq {s t : State} (hb : t.toBlock = s.toBlock) (hc : t.commands = s.commands) :
    SameRegisters s t :=
  ⟨congrArg Block.mode hb, congrArg Block.numBits hb, congrArg Block.k hb, congrArg Block.errflags hb, hc⟩

/-- Settles O25: each clause is the inversion of one way a command of the family ends. -/
theorem bitArrayFrame : Obligations.BitArrayFrame := by
  refine ⟨fun p v s t h hok => ?_, fun i s t hi h hok => ?_, fun i s t e _ h hf => ?_⟩
  · rw [eq_setBit_of_not_failed h hok]
    refine ⟨fun i hi => ?_, fun a ha => read_setBit_other s.slots v ha, ⟨rfl, rfl, rfl, rfl, rfl⟩, rfl⟩
    exact (getBit_setBit s.slots p.toNat v i).trans (if_neg hi)
  · have hreads : i.opcode ∈ [Opcode.rdreg, .bget, .btoint, .brdslot, .bfqry, .hpos] :=
      (by decide : [Opcode.bget, .btoint, .brdslot] ⊆ [.rdreg, .bget, .btoint, .brdslot, .bfqry, .hpos]) hi
    obtain ⟨hb, hc⟩ := toBlock_eq_of_answered hreads h hok
    exact ⟨congrArg Block.slots hb, sameRegisters_of_toBlock_eq hb hc, congrArg Block.elem hb⟩
  · rw [(eq_raise_of_failed h hf).1]
    exact onlyRaised_raise s e

/-- Settles O48: of the ways a command ends, only reset and the two constructions touch `NUM_BITS` or `K`, and each leaves
an empty memory. -/
theorem sizeChangesOnlyByConstruction : Obligations.SizeChangesOnlyByConstruction := by
  intro i s t h hchange
  obtain ⟨r, hr, rfl⟩ := effect_of_exec h
  cases hr with
  | reset hi => subst hi; exact ⟨rfl, rfl, fun a _ => read_nil a⟩
  | array n hi _ _ => subst hi; exact ⟨rfl, rfl, fun a _ => read_zeroed a⟩
  | filter m k hi _ _ _ _ => subst hi; exact ⟨rfl, rfl, fun a _ => read_zeroed a⟩
  | _ => exact absurd hchange (not_or.mpr ⟨not_not_intro rfl, not_not_intro rfl⟩)

end Sys2Proof.Machine
end

section
/-! PROOFS. What an array holds after a construction and any list of writes (R108, R110; O21, O22): an invariant of the state
that each `BSET` of the list carries one write further. -/

namespace Sys2Proof.Machine
open Sys2Proof.Safety

/-- The latest write decides, if it is to this position (R108). -/
theorem lastWrite_concat (writes : List (BitVec 32 × BitVec 1)) (w : BitVec 32 × BitVec 1) (p : BitVec 32) :
    lastWrite (writes ++ [w]) p = if w.1 = p then w.2 else lastWrite writes p := by
  rw [lastWrite, List.foldl_concat, ← lastWrite]

/-- The block is in an array of `n` bits in which every position holds what `writes` last wrote there, and no bit beyond the
array is 1. -/
structure HoldsWrites (n : BitVec 32) (writes : List (BitVec 32 × BitVec 1)) (t : State) : Prop where
  mode : t.mode = .array
  numBits : t.numBits = n
  inside : ∀ p : BitVec 32, t.slots.getBit p.toNat = lastWrite writes p
  beyond : ∀ i, n.toNat ≤ i → t.slots.getBit i = 0#1

/-- A new array holds no writes (R101). -/
theorem holdsWrites_banew {n : BitVec 32} (s : State) (h : n ≠ 0) (hm : n.toNat ≤ Config.block.mMax) :
    ∃ t, exec (.banew n) s = .next t ∧ HoldsWrites n [] t :=
  ⟨_, exec_banew s h hm, rfl, rfl, fun p => getBit_zeroed p.toNat, fun i _ => getBit_zeroed i⟩

/-- `BSET` at a position of the array adds its write (R103). -/
theorem holdsWrites_bset {n : BitVec 32} {writes : List (BitVec 32 × BitVec 1)} {t : State}
    (h : HoldsWrites n writes t) {w : BitVec 32 × BitVec 1} (hw : w.1 < n) :
    ∃ u, exec (.bset w.1 w.2) t = .next u ∧ HoldsWrites n (writes ++ [w]) u := by
  refine ⟨_, exec_bset w.2 h.mode (h.numBits ▸ hw), h.mode, h.numBits, fun p => ?_, fun i hi => ?_⟩
  · calc (t.slots.setBit w.1.toNat w.2).getBit p.toNat
        = if p.toNat = w.1.toNat then w.2 else t.slots.getBit p.toNat := getBit_setBit ..
      _ = if w.1 = p then w.2 else lastWrite writes p := by simp only [h.inside, BitVec.toNat_inj, eq_comm]
      _ = lastWrite (writes ++ [w]) p := (lastWrite_concat writes w p).symm
  · have hne : i ≠ w.1.toNat := Nat.ne_of_gt (Nat.lt_of_lt_of_le hw hi)
    exact (getBit_setBit ..).trans ((if_neg hne).trans (h.beyond i hi))

/-- After a construction and any list of writes inside the array, the array holds these writes. -/
theorem holdsWrites_runList {n : BitVec 32} {writes : List (BitVec 32 × BitVec 1)} (s : State) (h : n ≠ 0)
    (hm : n.toNat ≤ Config.block.mMax) (hw : ∀ w ∈ writes, w.1 < n) :
    ∃ t, runList (.banew n :: writes.map fun w => .bset w.1 w.2) s = .next t ∧ HoldsWrites n writes t := by
  induction writes using List.reverseRecOn with
  | nil =>
    obtain ⟨t, ht, hold⟩ := holdsWrites_banew s h hm
    exact ⟨t, by simp only [List.map_nil, runList, ht], hold⟩
  | append_singleton writes w ih =>
    obtain ⟨t, ht, hold⟩ := ih fun w' hw' => hw w' (List.mem_append_left _ hw')
    obtain ⟨u, hu, hold'⟩ := holdsWrites_bset hold (hw w (by simp))
    refine ⟨u, ?_, hold'⟩
    rw [List.map_append, ← List.cons_append, runList_append _ ht]
    simp only [List.map_cons, List.map_nil, runList, hu]

/-- Settles O21: `BGET` reads the position that the invariant speaks of. -/
theorem readingBackTheLastWrite : Obligations.ReadingBackTheLastWrite := by
  intro s n writes p h hm hw hp
  obtain ⟨t, ht, hold⟩ := holdsWrites_runList s h hm hw
  refine ⟨t, ht, ?_⟩
  have hmode : t.mode ≠ .unconf := by
    rw [hold.mode]
    decide
  rw [Answers, exec_bget hmode (hold.numBits ▸ hp), hold.inside]
  rfl

/-- Bit `i` of `ToInteger` is 1 exactly where `i` is a position of the array whose last written value is 1. -/
theorem testBit_toInteger_of_holdsWrites {n : BitVec 32} {writes : List (BitVec 32 × BitVec 1)} {t : State}
    (h : HoldsWrites n writes t) (i : Nat) :
    t.toInteger.testBit i = (decide (i < n.toNat) && decide (lastWrite writes (BitVec.ofNat 32 i) = 1)) := by
  have hbit (v : Bool) : v = decide (BitVec.ofBool v = 1) := by cases v <;> rfl
  by_cases hslots : i < 64 * t.numSlots
  · rw [hbit (t.toInteger.testBit i), ← getBit_eq_testBit_toInteger hslots]
    by_cases hi : i < n.toNat
    · have hpos : (BitVec.ofNat 32 i).toNat = i := Nat.mod_eq_of_lt (Nat.lt_trans hi n.isLt)
      rw [← h.inside, hpos, decide_eq_true hi, Bool.true_and]
    · rw [h.beyond i (Nat.le_of_not_lt hi), decide_eq_false hi, Bool.false_and]
      rfl
  · have hi : ¬i < n.toNat := fun hi =>
      hslots (Nat.lt_of_lt_of_le (h.numBits ▸ hi) (numBits_le_slots t.toBlock))
    rw [testBit_toInteger, decide_eq_false hslots, decide_eq_false hi, Bool.false_and, Bool.false_and]

/-- Settles O22: both numbers have the same bits. -/
theorem projectionIsTheSumOfSetBits : Obligations.ProjectionIsTheSumOfSetBits := by
  intro s n writes h hm hw
  obtain ⟨t, ht, hold⟩ := holdsWrites_runList s h hm hw
  refine ⟨t, ht, Nat.eq_of_testBit_eq fun i => ?_⟩
  rw [testBit_toInteger_of_holdsWrites hold]
  exact (testBit_sum_powers (fun i => lastWrite writes (BitVec.ofNat 32 i) = 1) n.toNat i).symm

end Sys2Proof.Machine
end

section
/-! PROOFS. The bits that the filter commands read and write (R136, R137), said of single bits so that no order of writes and
no grouping of reads is left in them, and one command of the filter at a time (R135 to R138, R147; O26, O27, O28, O30,
O35). -/

namespace Sys2Proof.Machine
open Sys2Proof.Safety

/-! A bit is 1 or it is not, so bits, words and memories are compared by where they are 1. -/

theorem bit_eq_of_eq_one_iff {v w : BitVec 1} (h : v = 1#1 ↔ w = 1#1) : v = w := by
  revert h
  revert v w
  decide

theorem and_eq_one (v w : BitVec 1) : v &&& w = 1#1 ↔ v = 1#1 ∧ w = 1#1 := by
  revert v w
  decide

theorem getBit_eq_one_iff (m : Memory) (i : Nat) :
    m.getBit i = 1#1 ↔ (m.read (slotOf i)).getLsbD (offOf i) = true := by
  rw [getBit_eq]
  cases (m.read (slotOf i)).getLsbD (offOf i) <;> decide

/-- A bit of a word is 1 where it is the bit of a position that is 1; beyond bit 63 there is neither (R51). -/
theorem getLsbD_read_iff (m : Memory) (a o : Nat) :
    (m.read a).getLsbD o = true ↔ ∃ i, slotOf i = a ∧ offOf i = o ∧ m.getBit i = 1#1 := by
  constructor
  · intro h
    have ho : o < 64 := BitVec.lt_of_getLsbD h
    have hslot : slotOf (64 * a + o) = a := by unfold slotOf; omega
    have hoff : offOf (64 * a + o) = o := by unfold offOf; omega
    exact ⟨64 * a + o, hslot, hoff, (getBit_eq_one_iff m _).mpr (by rwa [hslot, hoff])⟩
  · rintro ⟨i, rfl, rfl, h⟩
    exact (getBit_eq_one_iff m i).mp h

/-- Canonical memories that are 1 at the same positions are the same list. -/
theorem eq_of_getBit_eq_one_iff {m n : Memory} (hm : m.wf) (hn : n.wf)
    (h : ∀ i, m.getBit i = 1#1 ↔ n.getBit i = 1#1) : m = n :=
  Memory.ext_of_wf hm hn (read_eq_of_getBit_eq fun i => bit_eq_of_eq_one_iff (h i))

/-- Setting positions makes these 1 and leaves what was 1 (R136). -/
theorem getBit_setPositions_eq_one (c : Params) (b : Block) (js : List Nat) (i : Nat) :
    (setPositions c b js).getBit i = 1#1 ↔ b.slots.getBit i = 1#1 ∨ ∃ j ∈ js, b.posOf c j = i := by
  rw [getBit_setPositions]
  split
  · exact iff_of_true rfl (.inr ‹_›)
  · exact (or_iff_left ‹_›).symm

/-- The same of the bits of a word. -/
theorem getLsbD_read_setPositions (c : Params) (b : Block) (js : List Nat) (a o : Nat) :
    ((setPositions c b js).read a).getLsbD o = true ↔
      (b.slots.read a).getLsbD o = true ∨ ∃ j ∈ js, slotOf (b.posOf c j) = a ∧ offOf (b.posOf c j) = o := by
  simp only [getLsbD_read_iff, getBit_setPositions_eq_one]
  constructor
  · rintro ⟨i, ha, ho, hi | ⟨j, hj, rfl⟩⟩
    · exact .inl ⟨i, ha, ho, hi⟩
    · exact .inr ⟨j, hj, ha, ho⟩
  · rintro (⟨i, ha, ho, hi⟩ | ⟨j, hj, ha, ho⟩)
    · exact ⟨i, ha, ho, .inl hi⟩
    · exact ⟨_, ha, ho, .inr ⟨j, hj, rfl⟩⟩

/-! Outside `FILTER` mode the commands of the filter raise `WrongMode` (R136, R137). -/

theorem raises_bfins {s : State} (h : s.mode ≠ .filter) : Raises .bfins s .wrongMode := raises_of_runCommand (if_pos h)

theorem raises_bfqry {s : State} (h : s.mode ≠ .filter) : Raises .bfqry s .wrongMode := raises_of_runCommand (if_pos h)

/-- Settles O26: the checks of R135 in their order, then `exec_bfnew`. -/
theorem bfnewConstructsAZeroedFilter : Obligations.BfnewConstructsAZeroedFilter := by
  intro s m k
  refine ⟨fun h => raises_of_runCommand (if_pos h), fun hk hkm h => raises_of_runCommand ?_, fun hk hkm hm hmm => ?_⟩
  · exact (if_neg (not_or.mpr ⟨hk, Nat.not_lt.mpr hkm⟩)).trans (if_pos h)
  · exact ⟨_, exec_bfnew s hk hkm hm hmm, rfl, rfl, rfl, rfl, fun a _ => read_zeroed a, rfl, rfl, rfl, rfl⟩

/-- Settles O27: `exec_bfins`, with the bits of its words. -/
theorem bfinsSetsThePositions : Obligations.BfinsSetsThePositions := by
  refine fun s => ⟨raises_bfins, fun h _ => ?_⟩
  refine ⟨_, exec_bfins h, fun a o => ?_, ⟨rfl, rfl, rfl, rfl, rfl⟩, rfl, rfl⟩
  simp only [← posOf_eq Config.block s.toBlock, ← List.mem_range (n := s.k.toNat)]
  exact getLsbD_read_setPositions Config.block s.toBlock (List.range s.k.toNat) a o

/-! Whatever computes the AND of the `K` bits computes the data of `BFQRY` (R137). -/

/-- A bit that is 1 exactly when the bits at all `K` positions are is what `BFQRY` answers. -/
theorem answers_bfqry {s : State} (hmode : s.mode = .filter) {v : BitVec 1}
    (hv : v = 1#1 ↔ ∀ j < s.k.toNat, s.slots.getBit (s.posOf Config.block j) = 1#1) :
    Answers .bfqry s [v.setWidth 64] := by
  have hand : v = andPositions Config.block s.toBlock (List.range s.k.toNat) :=
    bit_eq_of_eq_one_iff (by simp only [hv, andPositions_eq_one, List.mem_range])
  rw [hand]
  exact answers_of_runCommand (if_neg (not_not_intro hmode))

/-- Settles O28: the bits that the statement writes out are those `GetBit` reads at the positions. -/
theorem bfqryAnswersTheAnd : Obligations.BfqryAnswersTheAnd := by
  refine fun s => ⟨raises_bfqry, fun h _ => ?_⟩
  simp only [← posOf_eq Config.block s.toBlock]
  refine ⟨fun hall => answers_bfqry (v := 1#1) h (iff_of_true rfl fun j hj => ?_),
    fun ⟨j, hj, hzero⟩ => answers_bfqry (v := 0#1) h (iff_of_false (by decide) fun hall => ?_)⟩
  · exact (getBit_eq_one_iff ..).mpr (hall j hj)
  · exact Bool.false_ne_true (hzero.symm.trans ((getBit_eq_one_iff ..).mp (hall j hj)))

/-- A tree of ANDs gives 1 when all its lanes do, whatever its shape (R138). -/
theorem output_eq_one (c : Params) (b : Block) (tree : AndTree) :
    tree.output c b = 1#1 ↔ ∀ j ∈ tree.lanes, laneOutput c b j = 1#1 := by
  induction tree with
  | lane j => simp only [AndTree.output, AndTree.lanes, List.forall_mem_singleton]
  | both l r ihl ihr => rw [AndTree.output, AndTree.lanes, and_eq_one, ihl, ihr, List.forall_mem_append]

/-- Stopping at the first 0 gives 1 when there is none (R138). -/
theorem stopAtZero_eq_one (c : Params) (b : Block) (js : List Nat) :
    stopAtZero c b js = 1#1 ↔ ∀ j ∈ js, b.slots.getBit (b.posOf c j) = 1#1 := by
  induction js with
  | nil => simp [stopAtZero]
  | cons j js ih =>
    rw [stopAtZero, List.forall_mem_cons]
    rcases bit_cases (b.slots.getBit (b.posOf c j)) with h | h
    · simp [h]
    · simp [h, ih]

/-- All `K_MAX` lanes give 1 when the `K` enabled ones do (R138). -/
theorem forall_laneOutput_eq_one {c : Params} {b : Block} (hk : b.k.toNat ≤ c.kMax) :
    (∀ j < c.kMax, laneOutput c b j = 1#1) ↔ ∀ j < b.k.toNat, b.slots.getBit (b.posOf c j) = 1#1 := by
  refine ⟨fun h j hj => ?_, fun h j _ => ?_⟩
  · exact (if_pos hj).symm.trans (h j (Nat.lt_of_lt_of_le hj hk))
  · unfold laneOutput
    split
    · exact h j ‹_›
    · rfl

/-- Settles O30: both evaluations are 1 exactly when the `K` bits are. -/
theorem membershipEngineAgreesWithTheLoop : Obligations.MembershipEngineAgreesWithTheLoop := by
  refine fun s tree hmode hk hperm => ⟨answers_bfqry hmode ?_, answers_bfqry hmode ?_⟩
  · simp only [output_eq_one, hperm.mem_iff, List.mem_range]
    exact forall_laneOutput_eq_one hk
  · simp only [stopAtZero_eq_one, List.mem_range]

/-! What the response of a command says of it. -/

theorem not_failed_respond (s : State) (b : Block) (ds : List Word) (e : Err) : ¬Failed s (s.after (b.respond ds)) e := by
  simp [Failed]

theorem eq_of_onlyRaised_of_failed {s t : State} {e e' : Err} (h : OnlyRaised s t e) (hf : Failed s t e') : e = e' := by
  simpa using h.responses.symm.trans hf

/-- Settles O35: (I3) of R32 gives `NUM_BITS` at least 1, so `pos_lt` keeps every position inside the array; the only error
of the two commands is the mode check. -/
theorem positionsAreInRange : Obligations.PositionsAreInRange := by
  refine ⟨fun j e m => pos_lt _ j e, fun s t hinv h => ?_, fun s t h => ?_⟩
  · by_cases hmode : s.mode = .filter
    · cases (exec_bfins hmode).symm.trans h
      refine ⟨not_failed_respond s _ _ _, fun i hi => ?_⟩
      have hpos (j : Nat) : s.posOf Config.block j < s.numBits.toNat := pos_lt _ _ _ (hinv.filter hmode).1
      exact (getBit_setPositions ..).trans (if_neg fun ⟨j, _, hj⟩ => Nat.not_lt.mpr hi (hj ▸ hpos j))
    · obtain ⟨t', ht', hr⟩ := raises_bfins hmode
      cases ht'.symm.trans h
      exact ⟨fun hf => (nomatch eq_of_onlyRaised_of_failed hr hf), fun i _ => by rw [hr.slots]⟩
  · by_cases hmode : s.mode = .filter
    · cases (exec_bfqry hmode).symm.trans h
      exact not_failed_respond s _ _ _
    · obtain ⟨t', ht', hr⟩ := raises_bfqry hmode
      cases ht'.symm.trans h
      exact fun hf => nomatch eq_of_onlyRaised_of_failed hr hf

end Sys2Proof.Machine
end

section
/-! PROOFS. What every command keeps of a filter that is not destroyed (R139, R141; O31, O33). -/

namespace Sys2Proof.Machine
open Sys2Proof.Safety

/-- In `t` the filter of `s` is still there, of the same size and the same `K`, and no bit of it went back to 0. -/
structure FilterKept (s t : State) : Prop where
  mode : t.mode = .filter
  numBits : t.numBits = s.numBits
  k : t.k = s.k
  bits : ∀ i, s.slots.getBit i = 1#1 → t.slots.getBit i = 1#1

theorem FilterKept.refl {s : State} (h : s.mode = .filter) : FilterKept s s := ⟨h, rfl, rfl, fun _ => id⟩

theorem FilterKept.trans {s t u : State} (h : FilterKept s t) (h' : FilterKept t u) : FilterKept s u :=
  ⟨h'.mode, h'.numBits.trans h.numBits, h'.k.trans h.k, fun i hi => h'.bits i (h.bits i hi)⟩

/-- A command that succeeds where none may end the filter is not one of those that can (R112). -/
theorem rebuilds_eq_false_of_respond {i : Instr} {s : State} {b : Block} {ds : List Word}
    (kept : rebuilds i.opcode = true → ∃ e, Failed s (s.after (b.respond ds)) e) : rebuilds i.opcode = false :=
  Bool.eq_false_iff.mpr fun hi => (kept hi).elim (not_failed_respond s b ds)

/-- One command in `FILTER` mode: only `BFINS` writes a bit, and it writes 1. -/
theorem filterKept_of_exec {i : Instr} {s t : State} (hmode : s.mode = .filter) (h : exec i s = .next t)
    (kept : rebuilds i.opcode = true → ∃ e, Failed s t e) : FilterKept s t := by
  obtain ⟨r, hr, rfl⟩ := effect_of_exec h
  cases hr with
  | reset hi => subst hi; exact nomatch rebuilds_eq_false_of_respond kept
  | array n hi => subst hi; exact nomatch rebuilds_eq_false_of_respond kept
  | filter m k hi => subst hi; exact nomatch rebuilds_eq_false_of_respond kept
  | bit p v _ harray => exact absurd (hmode.symm.trans harray) (by decide)
  | inserted => exact ⟨hmode, rfl, rfl, fun i hi => (getBit_setPositions_eq_one ..).mpr (.inl hi)⟩
  | _ => exact ⟨hmode, rfl, rfl, fun _ => id⟩

/-- The step lemma along a run that does not destroy the filter. -/
theorem filterKept_of_noRebuild {s t : State} (hmode : s.mode = .filter) (h : NoRebuild s t) : FilterKept s t := by
  induction h with
  | refl => exact .refl hmode
  | step i _ run kept ih => exact ih.trans (filterKept_of_exec ih.mode run kept)

/-- More bits, no smaller an integer (R54). -/
theorem toInteger_le_of_getBit_imp {b b' : Block} (hn : b'.numBits = b.numBits)
    (h : ∀ i, b.slots.getBit i = 1#1 → b'.slots.getBit i = 1#1) : b.toInteger ≤ b'.toInteger := by
  have hslots : b'.numSlots = b.numSlots := by rw [Block.numSlots, hn, ← Block.numSlots]
  have hbit (i : Nat) (hi : b.toInteger.testBit i = true) : b'.toInteger.testBit i = true := by
    rw [testBit_toInteger, Bool.and_eq_true] at hi ⊢
    exact ⟨hslots ▸ hi.1, (getBit_eq_one_iff ..).mp (h i ((getBit_eq_one_iff ..).mpr hi.2))⟩
  have hand : b.toInteger &&& b'.toInteger = b.toInteger := Nat.eq_of_testBit_eq fun i => by
    rw [Nat.testBit_and]
    exact Bool.and_eq_left_iff_imp.mpr (hbit i)
  exact hand ▸ Nat.and_le_right

/-- Settles O33: `FilterKept` is the statement about the bits, and the integer grows with them. -/
theorem filterBitsOnlyGrow : Obligations.FilterBitsOnlyGrow := by
  intro s t hmode h
  have kept := filterKept_of_noRebuild hmode h
  exact ⟨kept.bits, toInteger_le_of_getBit_imp kept.numBits kept.bits⟩

/-! `BFINS` is one of these commands, and its bits are the positions beside those that were 1. -/

theorem filterKept_of_bfins {s t : State} (hmode : s.mode = .filter) (h : exec .bfins s = .next t) : FilterKept s t :=
  filterKept_of_exec hmode h fun hi => absurd hi (by decide)

theorem getBit_of_bfins {s t : State} (hmode : s.mode = .filter) (h : exec .bfins s = .next t) (i : Nat) :
    t.slots.getBit i = 1#1 ↔ s.slots.getBit i = 1#1 ∨ ∃ j < s.k.toNat, s.posOf Config.block j = i := by
  cases (exec_bfins hmode).symm.trans h
  simp only [← List.mem_range (n := s.k.toNat)]
  exact getBit_setPositions_eq_one ..

/-- Settles O31: `BFINS` makes the positions of the element 1, `FilterKept` keeps them 1, and the query reads the same
positions because `NUM_BITS` and `K` are kept too. -/
theorem noFalseNegatives : Obligations.NoFalseNegatives := by
  intro s t u hmode hins hrun helem
  have hst := filterKept_of_bfins hmode hins
  have htu := filterKept_of_noRebuild hst.mode hrun
  have hsu := hst.trans htu
  refine answers_bfqry (v := 1#1) hsu.mode (iff_of_true rfl fun j hj => ?_)
  have hpos : u.posOf Config.block j = s.posOf Config.block j := by
    rw [Block.posOf, Block.posOf, helem, hsu.numBits]
  rw [hpos]
  exact htu.bits _ ((getBit_of_bfins hmode hins _).mpr (.inr ⟨j, hsu.k ▸ hj, rfl⟩))

end Sys2Proof.Machine
end

section
/-! PROOFS. The order and the repetition of insertions (R140, R146; O32, O34): the slots after them are canonical, and their
bits speak of the inserted elements as a set. -/

namespace Sys2Proof.Machine
open Sys2Proof.Safety

/-- The slots that setting positions leaves depend only on which positions these are. -/
theorem setPositions_congr (c : Params) {b : Block} (hwf : b.slots.wf) {js js' : List Nat} (h : ∀ j, j ∈ js ↔ j ∈ js') :
    setPositions c b js = setPositions c b js' :=
  eq_of_getBit_eq_one_iff (wf_setPositions c hwf js) (wf_setPositions c hwf js') fun i => by
    simp only [getBit_setPositions_eq_one, h]

/-- Setting positions that have been set already changes nothing. -/
theorem setPositions_setPositions (c : Params) {b : Block} (hwf : b.slots.wf) (js : List Nat) :
    setPositions c { b with slots := setPositions c b js } js = setPositions c b js := by
  have hwf' := wf_setPositions c hwf js
  refine eq_of_getBit_eq_one_iff (wf_setPositions c hwf' js) hwf' fun i => ?_
  rw [getBit_setPositions_eq_one]
  exact or_iff_left_of_imp fun hpos => (getBit_setPositions_eq_one ..).mpr (.inr hpos)

/-- `ToInteger` is a function of the size and the slots (R54). -/
theorem toInteger_congr {b b' : Block} (hn : b.numBits = b'.numBits) (hs : b.slots = b'.slots) :
    b.toInteger = b'.toInteger := by
  rw [Block.toInteger, Block.numSlots, hn, hs, ← Block.numSlots, ← Block.toInteger]

/-- Settles O32: the second `BFINS` sets the positions that the first has set. -/
theorem insertionIsIdempotent : Obligations.InsertionIsIdempotent := by
  intro s hmode hcan
  have hslots := setPositions_setPositions Config.block hcan.wf (List.range s.k.toNat)
  exact ⟨_, _, exec_bfins hmode, exec_bfins hmode, hslots, toInteger_congr rfl hslots⟩

theorem wf_of_bfins {s t : State} (hmode : s.mode = .filter) (h : exec .bfins s = .next t) (hwf : s.slots.wf) :
    t.slots.wf := by
  cases (exec_bfins hmode).symm.trans h
  exact wf_setPositions Config.block hwf (List.range s.k.toNat)

/-- A list of insertions completes, keeps the slots canonical, and makes the positions of its elements 1. -/
theorem insertAll_completes (es : List (List Byte)) {s : State} (hmode : s.mode = .filter) :
    ∃ t, insertAll es s = .next t ∧ (s.slots.wf → t.slots.wf) ∧
      ∀ i, t.slots.getBit i = 1#1 ↔ s.slots.getBit i = 1#1 ∨
        ∃ e ∈ es, ∃ j < s.k.toNat, pos Config.block j e s.numBits.toNat = i := by
  induction es generalizing s with
  | nil => exact ⟨s, rfl, id, fun i => by simp⟩
  | cons e es ih =>
    have hload : ({ s with elem := e } : State).mode = .filter := hmode
    obtain ⟨u, hu⟩ : ∃ u, exec .bfins { s with elem := e } = .next u := ⟨_, exec_bfins hload⟩
    have kept := filterKept_of_bfins hload hu
    obtain ⟨t, ht, hwf, hbits⟩ := ih kept.mode
    refine ⟨t, by rw [insertAll, hu]; exact ht, fun h => hwf (wf_of_bfins hload hu h), fun i => ?_⟩
    rw [hbits, getBit_of_bfins hload hu, kept.numBits, kept.k, List.exists_mem_cons_iff, or_assoc]
    rfl

/-- Settles O34: a permutation has the same members, so by `setPositions_congr` it sets the same positions and by
`insertAll_completes` it inserts the same bits. -/
theorem insertionOrderDoesNotMatter : Obligations.InsertionOrderDoesNotMatter := by
  refine ⟨fun s js hmode hcan hperm => ?_, fun s es es' hmode hcan hperm => ?_, fun s es hmode => ?_⟩
  · exact ⟨_, exec_bfins hmode, setPositions_congr Config.block hcan.wf fun j => hperm.symm.mem_iff⟩
  · obtain ⟨t, ht, hwf, hbits⟩ := insertAll_completes es hmode
    obtain ⟨t', ht', hwf', hbits'⟩ := insertAll_completes es' hmode
    refine ⟨t, t', ht, ht', eq_of_getBit_eq_one_iff (hwf hcan.wf) (hwf' hcan.wf) fun i => ?_⟩
    simp only [hbits, hbits', hperm.mem_iff]
  · obtain ⟨t, ht, _, hbits⟩ := insertAll_completes es hmode
    exact ⟨t, ht, hbits⟩

end Sys2Proof.Machine
end

section
/-! PROOFS. The host's sizing formulas (R130 to R132; O56): both are positive real numbers rounded up. -/

namespace Sys2Proof.Sizing

/-- A positive number rounded up is the least integer not below it, and at least 1. -/
theorem ceil_bounds {x : ℝ} (hx : 0 < x) : 1 ≤ ⌈x⌉₊ ∧ x ≤ ⌈x⌉₊ ∧ (⌈x⌉₊ : ℝ) < x + 1 :=
  ⟨Nat.one_le_ceil_iff.mpr hx, Nat.le_ceil x, Nat.ceil_lt_add_one hx.le⟩

/-- Settles O56: the logarithm of an error rate below 1 is negative, so the real value of `m` is positive, and with `m` that
of `k`. -/
theorem sizingRoundsUp : Obligations.SizingRoundsUp := by
  intro capacity errorRate hcap hpos hlt x m y k
  have hn : (0 : ℝ) < capacity := Nat.cast_pos.mpr hcap
  have hlog2 : 0 < Real.log 2 := Real.log_pos one_lt_two
  have hx : 0 < x := div_pos (neg_pos.mpr (mul_neg_of_pos_of_neg hn (Real.log_neg hpos hlt))) (pow_pos hlog2 2)
  obtain ⟨hm, hxm, hmx⟩ := ceil_bounds hx
  have hy : 0 < y := mul_pos (div_pos (Nat.cast_pos.mpr hm) hn) hlog2
  exact ⟨hm, hxm, hmx, ceil_bounds hy⟩

end Sys2Proof.Sizing
end

section
/-! PROOFS. The element buffer commands and the hash-position read (R165 to R167; O36, O37, O38). -/

namespace Sys2Proof.Machine
open Sys2Proof.Safety

/-- `HPOS` in `FILTER` mode at the index of one of the `K` hash functions (R167). -/
theorem answers_hpos {j : BitVec 16} {s : State} (h : s.mode = .filter) (hj : j < s.k) :
    Answers (.hpos j) s [BitVec.ofNat 64 (s.posOf Config.block j.toNat)] :=
  answers_of_runCommand ((if_neg (not_not_intro h)).trans (if_neg (BitVec.not_le.mpr hj)))

/-- Settles O38: the checks of R167 in their order, then the position that `posOf_eq` writes out. -/
theorem hposAnswersThePosition : Obligations.HposAnswersThePosition := by
  intro s j
  refine ⟨fun h => raises_of_runCommand (if_pos h),
    fun h hj => raises_of_runCommand ((if_neg (not_not_intro h)).trans (if_pos hj)), fun h hj _ => ?_⟩
  rw [← posOf_eq Config.block s.toBlock]
  exact answers_hpos h hj

/-- `ECLR` has no check: it completes from every state (R165). -/
theorem exec_eclr (s : State) : exec .eclr s = .next (s.after (Block.respond { s.toBlock with elem := [] } [])) := rfl

/-- Settles O36: `exec_eclr`, field by field. -/
theorem eclrEmptiesTheElement : Obligations.EclrEmptiesTheElement :=
  fun s => ⟨_, exec_eclr s, rfl, rfl, rfl, ⟨rfl, rfl, rfl, rfl, rfl⟩, rfl⟩

/-- `ELEN` counts the appended byte (R27, R166). -/
theorem elen_push (b : Block) (x : Byte) : ({ b with elem := b.elem ++ [x] } : Block).elen = b.elen + 1 := by
  rw [Block.elen, Block.elen, List.length_append, List.length_singleton, BitVec.ofNat_add]
  rfl

/-- Settles O37: a full buffer fails the one check of R166, and `exec_epush` is the command with room for the byte. -/
theorem epushAppendsTheByte : Obligations.EpushAppendsTheByte := by
  refine fun s b => ⟨fun h => raises_of_runCommand (if_pos h), fun h => ?_⟩
  exact ⟨_, exec_epush b h, rfl, elen_push s.toBlock b, rfl, ⟨rfl, rfl, rfl, rfl, rfl⟩, rfl⟩

end Sys2Proof.Machine
end

section
/-! PROOFS. Reading the registers (R22, R181; O12): `RDREG` answers what `Block.readReg` gives, and refuses where it gives
nothing. -/

namespace Sys2Proof.Machine
open Sys2Proof.Safety

/-! The registers that a command can change read as their own bits, zero-extended (R22 to R28). -/

@[simp] theorem readReg_mode (c : Params) (b : Block) : b.readReg c 0 = some (b.mode.code.setWidth 64) := rfl
@[simp] theorem readReg_numBits (c : Params) (b : Block) : b.readReg c 1 = some (b.numBits.setWidth 64) := rfl
@[simp] theorem readReg_numSlots (c : Params) (b : Block) : b.readReg c 2 = some (BitVec.ofNat 64 b.numSlots) := rfl
@[simp] theorem readReg_k (c : Params) (b : Block) : b.readReg c 3 = some (b.k.setWidth 64) := rfl
@[simp] theorem readReg_elen (c : Params) (b : Block) : b.readReg c 4 = some (b.elen.setWidth 64) := rfl
@[simp] theorem readReg_errflags (c : Params) (b : Block) : b.readReg c 5 = some (b.errflags.setWidth 64) := rfl

/-- The numbers outside the table of R22 name no register. -/
theorem readReg_eq_none (c : Params) (b : Block) {r : BitVec 16} (h : r.toNat = 6 ∨ r.toNat = 7 ∨ 12 ≤ r.toNat) :
    b.readReg c r = none := by
  unfold Block.readReg
  split
  case h_11 => rfl
  all_goals omega

/-- `RDREG` of a number that names a register answers its value and changes nothing (R181). -/
theorem answers_rdreg {r : BitVec 16} {s : State} {v : Word} (h : s.readReg Config.block r = some v) :
    Answers (.rdreg r) s [v] :=
  answers_of_runCommand (show rdreg Config.block r s.toBlock = _ by rw [rdreg, h])

/-- `RDREG` of a number that names no register raises `BadOperand` (R181). -/
theorem raises_rdreg {r : BitVec 16} {s : State} (h : s.readReg Config.block r = none) :
    Raises (.rdreg r) s .badOperand :=
  raises_of_runCommand (show rdreg Config.block r s.toBlock = _ by rw [rdreg, h])

/-- Settles O12: register by register, `Block.readReg` gives the value of the table, and for the other numbers nothing. -/
theorem rdregReadsEveryRegister : Obligations.RdregReadsEveryRegister := by
  intro s
  simp only [BitVec.ofNat_toNat]
  refine ⟨answers_rdreg ?_, answers_rdreg (readReg_numBits ..), answers_rdreg (readReg_numSlots ..),
    answers_rdreg (readReg_k ..), answers_rdreg (readReg_elen ..), answers_rdreg (readReg_errflags ..),
    answers_rdreg (readReg_capSlots ..), answers_rdreg (readReg_capK ..), answers_rdreg (readReg_capElem ..),
    answers_rdreg (readReg_capDigest ..), fun r h => raises_rdreg (readReg_eq_none _ _ h)⟩
  rw [readReg_mode]
  cases s.mode <;> rfl

end Sys2Proof.Machine
end

section
/-! PROOFS. What a failing command leaves behind, for itself (R193; O43) and for the next command (R194; O45). -/

namespace Sys2Proof.Machine
open Sys2Proof.Safety

/-- Settles O43: of the ways a command ends, only `raise` answers with an error. -/
theorem raisingChangesOnlyItsFlag : Obligations.RaisingChangesOnlyItsFlag := by
  intro i s t e h hf
  rw [(eq_raise_of_failed h hf).1]
  exact onlyRaised_raise s e

/-- The same result with `e` recorded in `ERRFLAGS` besides. -/
def Result.recording (r : Result) (e : Err) : Result := { r with errRecord := recordError r.errRecord e }

/-- The record keeps which errors were raised, not in which order (R28). -/
theorem recordError_right_comm (r : BitVec 7) (e e' : Err) :
    recordError (recordError r e) e' = recordError (recordError r e') e := by
  simp only [recordError, BitVec.or_assoc, BitVec.or_comm (1#7 <<< (e.code.toNat - 1))]

theorem raise_raise (b : Block) (e e' : Err) : (b.raise e).raise e' = (b.raise e').recording e :=
  congrArg (fun r => { b.raise e' with errRecord := r }) (recordError_right_comm b.errRecord e e')

/-- A check that does not look at `ERRFLAGS` passes or fails after an earlier error as it does without it; `r` and `q` are
what follows the check in the two cases. -/
theorem check_recording {P : Prop} [Decidable P] {b : Block} {e e' : Err} {r q : Result} (h : r = q.recording e) :
    (if P then (b.raise e).raise e' else r) = Result.recording (if P then b.raise e' else q) e := by
  split
  · exact raise_raise b e e'
  · exact h

/-- Every register but `ERRFLAGS` reads the same after an error (R22, R193). -/
theorem readReg_raise (c : Params) (b : Block) (e : Err) {r : BitVec 16} (hr : r ≠ 5) :
    (b.raise e).readReg c r = b.readReg c r := by
  unfold Block.readReg
  split
  case h_6 h5 => exact absurd (BitVec.eq_of_toNat_eq h5) hr
  all_goals rfl

/-- No command but `RDREG 5` and `RST` looks at `ERRFLAGS` or clears it, so an earlier error adds its record to the result
and nothing else (R194). -/
theorem runCommand_raise (c : Params) (b : Block) (e : Err) {j : Instr} (hrst : j ≠ .rst) (hreg : j ≠ .rdreg 5) :
    runCommand c j (b.raise e).toBlock = (runCommand c j b).recording e := by
  cases j with
  | rst => exact absurd rfl hrst
  | rdreg r =>
    show rdreg c r (b.raise e).toBlock = (rdreg c r b).recording e
    rw [rdreg, rdreg, readReg_raise c b e fun h => hreg (h ▸ rfl)]
    split
    · rfl
    · exact raise_raise b e .badOperand
  | bfins | bfqry | btoint | epush => exact check_recording rfl
  | banew | bget | bset | brdslot | bfnew | hpos => exact check_recording (check_recording rfl)
  | eclr => rfl

/-- Settles O45: the failed command left `s` with its error raised. `RST` discards the block either way, `RDREG 5` only
reads it, and for every other command `runCommand_raise` compares the two runs. -/
theorem failedCommandLeavesNoTrace : Obligations.FailedCommandLeavesNoTrace := by
  intro i j s t e h hf
  obtain ⟨rfl, -⟩ := eq_raise_of_failed h hf
  refine ⟨_, _, _, _, exec_eq j _, exec_eq j s, after_responses _ _, after_responses _ _, ?_⟩
  by_cases hrst : j = .rst
  · subst hrst
    exact ⟨fun _ => rfl, rfl, rfl, rfl, rfl, rfl, fun hne => absurd rfl hne⟩
  by_cases hreg : j = .rdreg 5
  · subst hreg
    exact ⟨fun hne => absurd rfl hne, rfl, rfl, rfl, rfl, rfl, fun _ => raise_errflags s.toBlock e⟩
  · simp only [after_toBlock, runCommand_raise Config.block s.toBlock e hrst hreg]
    exact ⟨fun _ => rfl, rfl, rfl, rfl, rfl, rfl, fun _ => recordError_append _ e⟩

end Sys2Proof.Machine
end

section
/-! PROOFS. The table of commands and modes (R199; O47): a command answers `WrongMode` exactly where the table refuses it. -/

namespace Sys2Proof.Machine
open Sys2Proof.Safety

/-- A mode check that is followed by no other `WrongMode` decides whether the command answers `WrongMode`. -/
theorem modeCheck_response {P : Prop} [Decidable P] {b : Block} {r : Result} (hr : r.response ≠ .error .wrongMode) :
    (if P then b.raise .wrongMode else r).response = .error .wrongMode ↔ P := by
  split
  · exact iff_of_true rfl ‹_›
  · exact iff_of_false hr ‹_›

/-- A check of an operand does not answer `WrongMode` (R195). -/
theorem operandCheck_response {P : Prop} [Decidable P] {b : Block} {r : Result} {e : Err} (he : e ≠ .wrongMode)
    (hr : r.response ≠ .error .wrongMode) : (if P then b.raise e else r).response ≠ .error .wrongMode := by
  split
  · exact fun h => he (Response.error.inj h)
  · exact hr

/-- `RDREG` fails with `BadOperand` or not at all (R181). -/
theorem rdreg_response_ne_wrongMode (c : Params) (r : BitVec 16) (b : Block) :
    (rdreg c r b).response ≠ .error .wrongMode := by
  unfold rdreg
  split <;> exact nofun

/-- The mode checks of the thirteen commands are the table of R199. -/
theorem response_eq_wrongMode_iff (c : Params) (i : Instr) (b : Block) :
    (runCommand c i b).response = .error .wrongMode ↔ accepted i.opcode b.mode = false := by
  have unconf_iff : ∀ o ∈ [Opcode.bget, .btoint, .brdslot], b.mode = .unconf ↔ accepted o b.mode = false := by
    cases b.mode <;> decide
  have array_iff : b.mode ≠ .array ↔ accepted .bset b.mode = false := by cases b.mode <;> decide
  have filter_iff : ∀ o ∈ [Opcode.bfins, .bfqry, .hpos], b.mode ≠ .filter ↔ accepted o b.mode = false := by
    cases b.mode <;> decide
  have ok (b' : Block) (ds : List Word) : (b'.respond ds).response ≠ .error .wrongMode := nofun
  cases i with
  | rst | eclr => exact iff_of_false (ok _ _) nofun
  | rdreg r => exact iff_of_false (rdreg_response_ne_wrongMode c r b) nofun
  | epush x => exact iff_of_false (operandCheck_response (by decide) (ok _ _)) nofun
  | banew | bfnew =>
    exact iff_of_false (operandCheck_response (by decide) (operandCheck_response (by decide) (ok _ _))) nofun
  | btoint => exact (modeCheck_response (ok _ _)).trans (unconf_iff _ (by simp [Instr.opcode]))
  | bget | brdslot =>
    exact (modeCheck_response (operandCheck_response (by decide) (ok _ _))).trans (unconf_iff _ (by simp [Instr.opcode]))
  | bset => exact (modeCheck_response (operandCheck_response (by decide) (ok _ _))).trans array_iff
  | bfins | bfqry => exact (modeCheck_response (ok _ _)).trans (filter_iff _ (by simp [Instr.opcode]))
  | hpos =>
    exact (modeCheck_response (operandCheck_response (by decide) (ok _ _))).trans (filter_iff _ (by simp [Instr.opcode]))

/-- A command that has run failed with `e` exactly when its response is `e`. -/
theorem failed_iff_of_exec {i : Instr} {s t : State} {e : Err} (h : exec i s = .next t) :
    Failed s t e ↔ (runCommand Config.block i s.toBlock).response = .error e := by
  cases (exec_eq i s).symm.trans h
  simp [Failed]

/-- Of the ways a command ends, only the two constructions and `RST` write `MODE` (R23, R199). -/
theorem mode_cases_of_exec {i : Instr} {s t : State} (h : exec i s = .next t) (hmode : t.mode ≠ s.mode) :
    Succeeded s t [] ∧
      ((∃ n, i = .banew n) ∧ t.mode = .array ∨ (∃ m k, i = .bfnew m k) ∧ t.mode = .filter ∨
        i = .rst ∧ t.mode = .unconf) := by
  obtain ⟨r, hr, rfl⟩ := effect_of_exec h
  cases hr with
  | reset hi => exact ⟨rfl, .inr (.inr ⟨hi, rfl⟩)⟩
  | array n hi => exact ⟨rfl, .inl ⟨⟨n, hi⟩, rfl⟩⟩
  | filter m k hi => exact ⟨rfl, .inr (.inl ⟨⟨m, k, hi⟩, rfl⟩)⟩
  | _ => exact absurd rfl hmode

/-- Settles O47: `response_eq_wrongMode_iff` in both directions, and what R193 says of an error once it is known. -/
theorem modesAcceptTheirCommands : Obligations.ModesAcceptTheirCommands := by
  refine ⟨fun i s h => ?_, fun i s t h hx hf => ?_, fun i s t => mode_cases_of_exec⟩
  · have hx := exec_eq i s
    have hf := (failed_iff_of_exec hx).mpr ((response_eq_wrongMode_iff _ i s.toBlock).mpr h)
    exact ⟨_, hx, raisingChangesOnlyItsFlag i s _ _ hx hf⟩
  · have refused := (response_eq_wrongMode_iff _ i s.toBlock).mp ((failed_iff_of_exec hx).mp hf)
    exact nomatch h.symm.trans refused

end Sys2Proof.Machine
end

section
/-! PROOFS. The round trip of commands and words (R70 to R75; O2, O3), and the pseudo-instructions as words (R81; O42). -/

namespace Sys2Proof

/-- The row of R74 that a command belongs to selects the command's word. -/
theorem selects_encode (i : Instr) : i.opcode.selects (encode i) = true := by
  have row : Laws.EncodedRow.Statement i := by
    cases i with
    | rst => exact Laws.EncodedRow.rst
    | rdreg r => exact Laws.EncodedRow.rdreg r
    | banew n => exact Laws.EncodedRow.banew n
    | bget p => exact Laws.EncodedRow.bget p
    | bset p v => exact Laws.EncodedRow.bset p v
    | btoint => exact Laws.EncodedRow.btoint
    | brdslot a => exact Laws.EncodedRow.brdslot a
    | bfnew m k => exact Laws.EncodedRow.bfnew m k
    | bfins => exact Laws.EncodedRow.bfins
    | bfqry => exact Laws.EncodedRow.bfqry
    | eclr => exact Laws.EncodedRow.eclr
    | epush b => exact Laws.EncodedRow.epush b
    | hpos j => exact Laws.EncodedRow.hpos j
  exact (row i.opcode).mpr rfl

/-- The operands that are read from the fields of a command are its own (R73). -/
theorem assemble_fields (i : Instr) : i.opcode.assemble i.fields = i := by
  cases i with
  | bset p v =>
    have hv : (0#7 ++ v).extractLsb' 0 1 = v := BitVec.extractLsb'_append_eq_right
    exact congrArg (Instr.bset p) hv
  | _ => rfl

/-- Settles O2: the row of the command selects its word, and the operands are read back from the fields they were put in. -/
theorem decodeOfEncodeIsTheCommand : Obligations.DecodeOfEncodeIsTheCommand := by
  intro i
  rw [decode_of_selects (selects_encode i), encode, ofWord_toWord, assemble_fields]

/-- A byte whose bits 7 to 1 are 0 is its bit 0 alone: the `B` field of format `V` (R72). -/
theorem append_extractLsb_of_unused_zero {b : BitVec 8} (h : b.extractLsb' 1 7 = 0) : 0#7 ++ b.extractLsb' 0 1 = b := by
  revert b; decide

/-- Fields with the row's opcode number and zeros where the format leaves them unused are those of the command that is
assembled from them (R72). -/
theorem fields_assemble {o : Opcode} {x : Fields} (hcode : x.opc = o.code) (hunused : o.format.unusedZero x = true) :
    (o.assemble x).fields = x := by
  obtain ⟨opc, a, b, p⟩ := x
  obtain rfl : opc = o.code := hcode
  cases o with
  | bset =>
    simp only [Opcode.format, Format.unusedZero, Bool.and_eq_true, beq_iff_eq] at hunused
    obtain ⟨rfl, hb⟩ := hunused
    simp only [Opcode.assemble, Instr.fields, Instr.opcode, append_extractLsb_of_unused_zero hb]
  | _ =>
    simp only [Opcode.format, Format.unusedZero, Bool.and_eq_true, beq_iff_eq] at hunused
    simp [Opcode.assemble, Instr.fields, Instr.opcode, hunused]

/-- Settles O3: the row that selects the word gives the command from the word's fields, and these are the command's own. -/
theorem encodeOfDecodeIsTheWord : Obligations.EncodeOfDecodeIsTheWord := by
  intro w i h
  have hsel := selects_of_decode h
  obtain ⟨hcode, hunused⟩ := (selects_iff_ofWord _ w).mp hsel
  have hi : i.opcode.assemble (Fields.ofWord w) = i := Decoded.command.inj ((decode_of_selects hsel).symm.trans h)
  have hfields := fields_assemble hcode hunused
  rw [hi] at hfields
  rw [encode, hfields, toWord_ofWord]

/-- Settles O42: the texts are written out, so they are expanded and encoded. -/
theorem pseudoInstructionWords : Obligations.PseudoInstructionWords := by
  refine ⟨?_, ?_, ?_, ?_⟩ <;> decide

end Sys2Proof
end

section
/-! PROOFS. A step and the step function of R10 (O6, O7, O58), the numbers of the errors (R190; O9) and the ranges of the
parameters (R8; O13). -/

namespace Sys2Proof.Machine
open Sys2Proof.Safety

/-- A step on a word that decodes to a command is that command, with the word taken from the port (R9, R70). -/
theorem step_of_command {s : State} {w : Word} {rest : List Word} {i : Instr} (hc : s.commands = w :: rest)
    (hd : decode w = .command i) : step s = exec i { s with commands := rest } := by
  rw [step_eq hc, exec_eq, runWord, hd]

/-- `decodeTableWord` gives a command where the decoder does (log 14). -/
theorem decode_of_decodeTableWord {nbits w : Nat} {i : Instr} (h : decodeTableWord nbits w = some i) :
    decode (BitVec.ofNat 64 (w % 2 ^ nbits)) = .command i := by
  unfold decodeTableWord at h
  split at h
  · cases h; assumption
  · cases h

/-- Settles O6: `withFetchWord` puts the word at the port, so the second clause is the first one there. -/
theorem stepRunsTheDecodedCommand : Obligations.StepRunsTheDecodedCommand :=
  ⟨fun _ _ _ _ hc hd => step_of_command hc hd,
    fun s _ _ h => step_of_command (present_commands s _) (decode_of_decodeTableWord h)⟩

/-- Settles O7: nothing is fetched from an empty port. -/
theorem stepIdlesWithoutACommand : Obligations.StepIdlesWithoutACommand := by
  intro s h
  rw [step, State.fetch, h]
  rfl

/-- A run takes its first step and goes on from there. -/
theorem run_succ {M : Host.Core} {s t : M.State} (k : Nat) (h : M.step s = .next t) : M.run (k + 1) s = M.run k t := by
  rw [Host.Core.run, h]

/-- As many steps as the host has words are `runWords` at them (R10). -/
theorem run_commands (ws : List Word) {s : State} (h : s.commands = ws) :
    Host.Core.run core ws.length s = .next
      { toBlock := (runWords Config.block ws s.toBlock).1
        commands := []
        responses := s.responses ++ (runWords Config.block ws s.toBlock).2 } := by
  induction ws generalizing s with
  | nil => 
    obtain ⟨b, cs, rs⟩ := s
    obtain rfl : cs = [] := h
    simp [runWords, Host.Core.run]
  | cons w ws ih =>
    refine (run_succ (M := core) ws.length (step_eq h)).trans ((ih (after_commands _ _)).trans ?_)
    simp [runWords]

/-- Settles O58: one step is `step_eq`, and the steps for all the words are `run_commands`. -/
theorem stepsAreTheFunctionOfBlockAndCommands : Obligations.StepsAreTheFunctionOfBlockAndCommands :=
  ⟨fun _ _ _ => step_eq, fun _ => run_commands _ rfl⟩

/-- Settles O9: the seven numbers are those of `Err.code`. -/
theorem errorCodeNumbers : Obligations.ErrorCodeNumbers := ⟨rfl, rfl, rfl, rfl, rfl, rfl, rfl⟩

/-- Settles O13: `Params` carries the ranges of R8 as proofs. -/
theorem parametersAreInRange : Obligations.ParametersAreInRange := by
  let c := Config.block
  obtain ⟨hslots, hslots'⟩ := c.numSlotsMax_range
  obtain ⟨hk, hk'⟩ := c.kMax_range
  obtain ⟨helem, helem'⟩ := c.elemMax_range
  exact ⟨hslots, hslots', rfl, mMax_lt c, hk, hk', helem, helem', c.digestBits_pos, c.digest_lt⟩

end Sys2Proof.Machine
end

section
/-! PROOFS. The invariants of R32 (O51, O52), the canonical form of the slot memory (O53) and the bound on `ToInteger` that
(I5) gives (R111; O24). -/

namespace Sys2Proof.Machine
open Sys2Proof.Safety

/-- Inversion of `step` in the terms of `Effect`: the block idled, or it took a word and its command ended in one of the ways
of `Effect`, or the word was illegal. -/
theorem step_effect {s t : State} (h : step s = .next t) :
    t = s ∨ ∃ w rest r, s.commands = w :: rest ∧ t = State.after { s with commands := rest } r ∧
      ((∃ i, decode w = .command i ∧ Effect Config.block i s.toBlock r) ∨ r = s.raise .illegalCommand) := by
  rcases step_cases h with ⟨-, rfl⟩ | ⟨w, rest, hc, ⟨i, hd, hx⟩ | ⟨-, rfl⟩⟩
  · exact .inl rfl
  · obtain ⟨r, hr, rfl⟩ := effect_of_exec hx
    exact .inr ⟨w, rest, r, hc, rfl, .inl ⟨i, hd, hr⟩⟩
  · exact .inr ⟨w, rest, _, hc, rfl, .inr rfl⟩

/-- The padding that (I5) speaks of is every position of the slots that is not one of the array. -/
theorem padding_iff (b : Block) :
    (b.numBits.toNat % 64 ≠ 0 → ∀ o, b.numBits.toNat % 64 ≤ o → o < 64 →
      (b.slots.read (b.numSlots - 1)).getLsbD o = false) ↔
    ∀ i, b.numBits.toNat ≤ i → i < 64 * b.numSlots → b.slots.getBit i = 0#1 := by
  refine ⟨fun h i hge hlt => ?_, fun h hr o hlow ho => ?_⟩
  · obtain ⟨hr, hslot, hoff⟩ := padding_position hge hlt
    rw [getBit_eq, hslot, h hr (offOf i) hoff (Nat.mod_lt _ (by decide))]
    rfl
  · have hge : b.numBits.toNat ≤ 64 * (b.numSlots - 1) + o := by unfold Block.numSlots; omega
    have hlt : 64 * (b.numSlots - 1) + o < 64 * b.numSlots := by unfold Block.numSlots; omega
    have hslot : slotOf (64 * (b.numSlots - 1) + o) = b.numSlots - 1 := by unfold slotOf; omega
    have hoff : offOf (64 * (b.numSlots - 1) + o) = o := by unfold offOf; omega
    have hbit := (getBit_eq_one_iff b.slots _).not.mp (ne_of_eq_of_ne (h _ hge hlt) (by decide))
    rwa [hslot, hoff, Bool.not_eq_true] at hbit

/-- (I4) and (I7) hold of every state, because `NUM_SLOTS` is a view and the types exclude the values of (I7) (logs 7, 8), so
the other invariants are enough; (I5) is said of positions. -/
theorem stateInv_of {c : Params} {s : State} (unconf : s.mode = .unconf → s.numBits = 0 ∧ s.k = 0)
    (array : s.mode = .array → 1 ≤ s.numBits.toNat ∧ s.numBits.toNat ≤ c.mMax ∧ s.k = 0)
    (filter : s.mode = .filter →
      1 ≤ s.numBits.toNat ∧ s.numBits.toNat ≤ c.mMax ∧ 1 ≤ s.k.toNat ∧ s.k.toNat ≤ c.kMax)
    (padding : ∀ i, s.numBits.toNat ≤ i → i < 64 * s.numSlots → s.slots.getBit i = 0#1)
    (elem : s.elem.length ≤ c.elemMax) : StateInv c s where
  unconf := unconf
  array := array
  filter := filter
  numSlots := rfl
  padding := (padding_iff s.toBlock).mpr padding
  elem := elem
  errflagsZero := errflags_bit_zero s.toBlock
  modeNot3 := by cases s.mode <;> decide

/-- What the invariants speak of are the size, the padding and the element; so they hold of every state with the same
registers and the same element whose slots differ at positions of the array alone. -/
theorem stateInv_congr {c : Params} {s t : State} (h : StateInv c s) (mode : t.mode = s.mode)
    (numBits : t.numBits = s.numBits) (k : t.k = s.k) (elem : t.elem = s.elem)
    (bits : ∀ i, s.numBits.toNat ≤ i → t.slots.getBit i = s.slots.getBit i) : StateInv c t := by
  have hslots : t.numSlots = s.numSlots := by rw [Block.numSlots, numBits, ← Block.numSlots]
  apply stateInv_of
  · rw [mode, numBits, k]; exact h.unconf
  · rw [mode, numBits, k]; exact h.array
  · rw [mode, numBits, k]; exact h.filter
  · rw [numBits, hslots]
    exact fun i hge hlt => (bits i hge).trans ((padding_iff s.toBlock).mp h.padding i hge hlt)
  · rw [elem]; exact h.elem

/-- The invariants hold of every block that is as after a hardware reset (R34). -/
theorem stateInv_of_reset (c : Params) {s : State} (h : s.toBlock = Block.reset) : StateInv c s := by
  obtain ⟨b, cs, rs⟩ := s
  obtain rfl : b = Block.reset := h
  exact stateInv_of (fun _ => ⟨rfl, rfl⟩) nofun nofun (fun i _ _ => getBit_zeroed i) (Nat.zero_le _)

/-- The two spellings of an operand that is not 0: that of the checks and that of R32. -/
theorem one_le_toNat_iff {w : Nat} {n : BitVec w} : 1 ≤ n.toNat ↔ n ≠ 0 := by
  simp [Nat.one_le_iff_ne_zero, BitVec.toNat_ne]

/-- Every way a command ends keeps the invariants of R32. -/
theorem stateInv_after {c : Params} {i : Instr} {s : State} (h : StateInv c s) {r : Result} (hr : Effect c i s.toBlock r) :
    StateInv c (s.after r) := by
  cases hr with
  | raised | answered => exact stateInv_congr h rfl rfl rfl rfl fun _ _ => rfl
  | reset => exact stateInv_of_reset c rfl
  | array n _ hn hmax =>
    exact stateInv_of nofun (fun _ => ⟨one_le_toNat_iff.mpr hn, hmax, rfl⟩) nofun (fun i _ _ => getBit_zeroed i) h.elem
  | filter m k _ hk hkmax hm hmax =>
    exact stateInv_of nofun nofun (fun _ => ⟨one_le_toNat_iff.mpr hm, hmax, one_le_toNat_iff.mpr hk, hkmax⟩)
      (fun i _ _ => getBit_zeroed i) h.elem
  | bit p v _ _ hp =>
    refine stateInv_congr h rfl rfl rfl rfl fun i hi => (getBit_setBit ..).trans (if_neg ?_)
    exact Nat.ne_of_gt (Nat.lt_of_lt_of_le hp hi)
  | inserted _ hmode =>
    refine stateInv_congr h rfl rfl rfl rfl fun i hi => (getBit_setPositions ..).trans (if_neg fun ⟨j, _, hj⟩ => ?_)
    exact Nat.not_lt.mpr hi (hj ▸ pos_lt _ _ _ (h.filter hmode).1)
  | cleared =>
    exact stateInv_of h.unconf h.array h.filter ((padding_iff s.toBlock).mp h.padding) (Nat.zero_le _)
  | pushed x _ hroom =>
    refine stateInv_of h.unconf h.array h.filter ((padding_iff s.toBlock).mp h.padding) ?_
    exact List.length_append.trans_le (Nat.lt_of_le_of_ne h.elem hroom)

/-- Settles O52: a step idles, ends in one of the ways of `Effect` or raises `IllegalCommand`; the word it takes is no part of
the block. -/
theorem stepKeepsTheInvariants : Obligations.StepKeepsTheInvariants := by
  intro s t h hstep
  rcases step_effect hstep with rfl | ⟨w, rest, r, -, rfl, ⟨i, -, hr⟩ | rfl⟩
  · exact h
  · exact stateInv_after (s := { s with commands := rest }) (stateInv_congr h rfl rfl rfl rfl fun _ _ => rfl) hr
  · exact stateInv_congr h rfl rfl rfl rfl fun _ _ => rfl

/-- Settles O51: the reset block holds no array, and an empty memory lists nothing. -/
theorem resetMeetsTheInvariants : Obligations.ResetMeetsTheInvariants :=
  ⟨stateInv_of_reset _ reset_toBlock, wf_zeroed, nofun⟩

/-- A position of the array lies in one of its slots (R25, R51). -/
theorem slotOf_lt_numSlots {b : Block} {i : Nat} (h : i < b.numBits.toNat) : slotOf i < b.numSlots := by
  unfold slotOf Block.numSlots
  omega

/-- Every way a command ends keeps the slot memory canonical: the two writing commands write at positions of the array. -/
theorem canonical_after {c : Params} {i : Instr} {s : State} (hinv : StateInv c s) (h : Canonical s) {r : Result}
    (hr : Effect c i s.toBlock r) : Canonical (s.after r) := by
  cases hr with
  | reset | array | filter => exact ⟨wf_zeroed, nofun⟩
  | bit p v _ _ hp =>
    refine ⟨wf_setBit h.wf p.toNat v, fun x hx => ?_⟩
    rcases mem_setBit hx with hslot | hx
    · exact hslot.trans_lt (slotOf_lt_numSlots hp)
    · exact h.inArray x hx
  | inserted _ hmode =>
    refine ⟨wf_setPositions c h.wf _, fun x hx => ?_⟩
    rcases mem_setPositions c s.toBlock _ hx with ⟨j, -, hslot⟩ | hx
    · exact hslot.trans_lt (slotOf_lt_numSlots (pos_lt _ _ _ (hinv.filter hmode).1))
    · exact h.inArray x hx
  | _ => exact ⟨h.wf, h.inArray⟩

/-- Settles O53: `canonical_after` for a command; an idle step and an illegal word leave the slots alone. -/
theorem stepKeepsTheMemoryCanonical : Obligations.StepKeepsTheMemoryCanonical := by
  intro s t hinv h hstep
  rcases step_effect hstep with rfl | ⟨w, rest, r, -, rfl, ⟨i, -, hr⟩ | rfl⟩
  · exact h
  · exact canonical_after (s := { s with commands := rest }) (stateInv_congr hinv rfl rfl rfl rfl fun _ _ => rfl)
      ⟨h.wf, h.inArray⟩ hr
  · exact ⟨h.wf, h.inArray⟩

/-- Settles O24: no bit of `ToInteger` at or above `NUM_BITS` is 1. -/
theorem projectionIsBelowTwoToTheNumBits : Obligations.ProjectionIsBelowTwoToTheNumBits :=
  fun _ h => Nat.lt_pow_two_of_testBit _ fun _ hi => testBit_toInteger_of_numBits_le h hi

end Sys2Proof.Machine
end

section
/-! PROOFS. What a command leaves alone, and how many beats it answers with (R27, R36, R50, R77; O10, O40, O49, O50). -/

namespace Sys2Proof.Machine
open Sys2Proof.Safety

/-- Settles O10: the reading commands answer with `NDATA` beats, every other command that succeeds with none. -/
theorem dataBeatsPerCommand : Obligations.DataBeatsPerCommand := by
  intro i s t ds h hok
  obtain ⟨r, hr, rfl⟩ := effect_of_exec h
  have hresp : r.response = .ok ds := by simpa [Succeeded] using hok
  cases hr with
  | raised => cases hresp
  | answered _ _ hlen => cases hresp; exact hlen
  | _ => subst i; cases hresp; rfl

/-- Settles O40: of the ways a command ends, only those of `ECLR`, `EPUSH` and `RST` write the element, and `ELEN` is a view
of it. -/
theorem elementChangesOnlyByItsCommands : Obligations.ElementChangesOnlyByItsCommands := by
  intro i s t h hi
  obtain ⟨r, hr, rfl⟩ := effect_of_exec h
  cases hr with
  | reset | cleared | pushed => subst i; simp [Instr.opcode] at hi
  | _ => exact ⟨rfl, rfl⟩

/-- Settles O49: of the ways a command ends, only those of the five commands write the slots. -/
theorem slotsChangeOnlyByTheirCommands : Obligations.SlotsChangeOnlyByTheirCommands := by
  intro i s t h hi
  obtain ⟨r, hr, rfl⟩ := effect_of_exec h
  cases hr with
  | reset | array | filter | bit | inserted => subst i; simp [Instr.opcode] at hi
  | _ => rfl

/-- Settles O50: a command that is none of the writing ones raises an error or answers on the block as it is. -/
theorem inspectionChangesNothing : Obligations.InspectionChangesNothing := by
  intro i s hi
  obtain ⟨r, hr, hrun⟩ : ∃ r, Effect Config.block i s.toBlock r ∧ runCommand Config.block i s.toBlock = r :=
    ⟨_, effect_runCommand .., rfl⟩
  cases hr with
  | raised e _ => exact .inr ⟨e, raises_of_runCommand hrun⟩
  | answered ds _ _ => exact .inl ⟨ds, answers_of_runCommand hrun⟩
  | _ => subst i; simp [Instr.opcode] at hi

end Sys2Proof.Machine
end

section
/-! PROOFS. The error record (R28; O44), a failed command issued again (R197; O46), and what `ERRFLAGS` says of a whole run
(R233; O54). -/

namespace Sys2Proof.Machine
open Sys2Proof.Safety

/-- A command other than `RST` raises an error, or it succeeds and leaves the error record as it is (R28). -/
theorem raised_or_errRecord_eq {c : Params} {i : Instr} {b : Block} {r : Result} (h : Effect c i b r) (hi : i ≠ .rst) :
    (∃ e, r = b.raise e) ∨ (∃ ds, r.response = .ok ds) ∧ r.errRecord = b.errRecord := by
  cases h with
  | raised e => exact .inl ⟨e, rfl⟩
  | reset h => exact absurd h hi
  | _ => exact .inr ⟨⟨_, rfl⟩, rfl⟩

/-- `ERRFLAGS` is a view of the error record. -/
theorem errflags_congr {b b' : Block} (h : b.errRecord = b'.errRecord) : b.errflags = b'.errflags :=
  congrArg (fun r : BitVec 7 => r ++ 0#1) h

/-- Settles O44: success leaves the record, an error adds a bit to it, and bit 0 is hardwired. -/
theorem errorRecordIsSticky : Obligations.ErrorRecordIsSticky := by
  refine ⟨fun i s t ds h hi hok => ?_, fun i s t b h hi hb => ?_, fun s => errflags_bit_zero s.toBlock⟩
  all_goals
    obtain ⟨r, hr, rfl⟩ := effect_of_exec h
    rcases raised_or_errRecord_eq hr hi with ⟨e, rfl⟩ | ⟨-, hrec⟩
  · simp [Succeeded] at hok
  · exact errflags_congr hrec
  · rw [after_toBlock, raise_errflags, BitVec.getLsbD_or, hb, Bool.true_or]
  · rw [after_toBlock, errflags_congr hrec, hb]

/-- `RDREG 5` does not fail: 5 is a register (R22). -/
theorem ne_rdreg_errflags_of_failed {i : Instr} {s t : State} {e : Err} (h : exec i s = .next t) (hf : Failed s t e) :
    i ≠ .rdreg 5 := by
  rintro rfl
  exact nomatch (failed_iff_of_exec h).mp hf

/-- Settles O46: the command that failed is none of the two that see `ERRFLAGS` (R194), so it fails as before, and the bit it
records is already 1. -/
theorem failedCommandFailsAgain : Obligations.FailedCommandFailsAgain := by
  intro i s t e h hf
  obtain ⟨ht, hrst⟩ := eq_raise_of_failed h hf
  have hresp : (runCommand Config.block i t.toBlock).response = .error e := by
    rw [ht, after_toBlock, runCommand_raise _ _ e hrst (ne_rdreg_errflags_of_failed h hf)]
    exact (failed_iff_of_exec h).mp hf
  have hx := exec_eq i t
  have hagain := raisingChangesOnlyItsFlag i t _ e hx ((failed_iff_of_exec hx).mpr hresp)
  refine ⟨_, hx, hagain, ?_⟩
  rw [hagain.errflags, ht, after_toBlock, raise_errflags, BitVec.or_assoc, BitVec.or_self]

/-- The response that a command ends with joins those of the run (R233). -/
theorem wentWrong_after (s : State) (r : Result) : WentWrong (s.after r) ↔ WentWrong s ∨ ∃ e, r.response = .error e := by
  simp only [WentWrong, after_responses, List.mem_append, List.mem_singleton, exists_or, eq_comm]

/-- After an error the run has gone wrong and `ERRFLAGS` is not 0 (R193). -/
theorem wentWrong_raise (s : State) (e : Err) : WentWrong (s.after (s.raise e)) ∧ (s.after (s.raise e)).errflags ≠ 0 :=
  ⟨(wentWrong_after ..).mpr (.inr ⟨e, rfl⟩), fun h => recordError_ne_zero _ e ((errflags_eq_zero _).mp h)⟩

/-- One step that is no `RST` keeps `ERRFLAGS` a record of whether the run has gone wrong. -/
theorem wentWrong_iff_step {s t : State} (h : WentWrong s ↔ s.errflags ≠ 0)
    (notRst : ∀ w rest, s.commands = w :: rest → decode w ≠ .command .rst) (run : step s = .next t) :
    WentWrong t ↔ t.errflags ≠ 0 := by
  rcases step_effect run with rfl | ⟨w, rest, r, hc, rfl, ⟨i, hd, hr⟩ | rfl⟩
  · exact h
  · have hi : i ≠ .rst := fun hi => notRst w rest hc (hi ▸ hd)
    rcases raised_or_errRecord_eq hr hi with ⟨e, rfl⟩ | ⟨⟨ds, hok⟩, hrec⟩
    · exact iff_of_true (wentWrong_raise _ e).1 (wentWrong_raise _ e).2
    · rw [wentWrong_after, hok, after_toBlock, errflags_congr hrec, ← h]
      exact or_iff_left nofun
  · exact iff_of_true (wentWrong_raise _ _).1 (wentWrong_raise _ _).2

/-- Settles O54: at the start no response is given and `ERRFLAGS` is 0, and every step of the run keeps the equivalence. -/
theorem goneWrongExactlyWhenFlagged : Obligations.GoneWrongExactlyWhenFlagged := by
  intro s t hresp hflags hrun
  induction hrun with
  | refl => exact iff_of_false (by simp [WentWrong, hresp]) (not_not_intro hflags)
  | step _ notRst run ih => exact wentWrong_iff_step ih notRst run

end Sys2Proof.Machine
end

section
/-! PROOFS. The element and its positions in corner cases (R168; O39), loading an element (R81, R227; O41), and a fresh
filter (R137; O29). -/

namespace Sys2Proof.Machine
open Sys2Proof.Safety

theorem rep_nil (n : Nat) : rep [] n = [] := by
  rw [rep_eq_flatten, List.flatten_replicate_nil]

theorem length_rep (e : List Byte) (n : Nat) : (rep e n).length = n * e.length := by
  rw [rep_eq_flatten, List.length_flatten, List.map_replicate, List.sum_replicate_nat]

/-- Settles O39: the positions are digests of repetitions, reduced. -/
theorem degeneratePositions : Obligations.DegeneratePositions := by
  refine ⟨fun j m => ?_, fun j e => Nat.mod_one _, fun a b e f ha hb h => ?_, fun j e => length_rep e (j + 1)⟩
  · rw [pos, hashJ, rep_nil]
  · rw [hashJ, hashJ, Nat.sub_add_cancel ha, Nat.sub_add_cancel hb, h]

/-- `t` is `s` with as much of `bytes` loaded as fits, and with `ElementOverflow` recorded if that is not all (R166, R227). -/
structure Loaded (s : State) (bytes : List Byte) (t : State) : Prop where
  elem : t.elem = bytes.take Config.block.elemMax
  slots : t.slots = s.slots
  mode : t.mode = s.mode
  numBits : t.numBits = s.numBits
  k : t.k = s.k
  errflags : t.errflags = if bytes.length ≤ Config.block.elemMax then s.errflags else s.errflags ||| 0x40

/-- `ECLR` loads nothing (R165). -/
theorem loaded_eclr (s : State) : ∃ t, exec .eclr s = .next t ∧ Loaded s [] t :=
  ⟨_, exec_eclr s, List.take_nil.symm, rfl, rfl, rfl, rfl, (if_pos (Nat.zero_le _)).symm⟩

/-- `EPUSH` loads one byte more, or records that it does not fit (R166). -/
theorem loaded_epush {s t : State} {bytes : List Byte} (h : Loaded s bytes t) (x : Byte) :
    ∃ u, exec (.epush x) t = .next u ∧ Loaded s (bytes ++ [x]) u := by
  obtain ⟨overflows, fits⟩ := epushAppendsTheByte t x
  have hlen : t.elem.length = min Config.block.elemMax bytes.length := by rw [h.elem, List.length_take]
  by_cases hfull : Config.block.elemMax ≤ bytes.length
  · obtain ⟨u, hu, hr⟩ := overflows (hlen.trans (min_eq_left hfull))
    refine ⟨u, hu, ?_, hr.slots.trans h.slots, hr.mode.trans h.mode, hr.numBits.trans h.numBits, hr.k.trans h.k, ?_⟩
    · rw [hr.elem, h.elem, List.take_append_of_le_length hfull]
    · have hlong : ¬(bytes ++ [x]).length ≤ Config.block.elemMax := by
        rw [List.length_append, List.length_singleton]; omega
      rw [hr.errflags, h.errflags, if_neg hlong]
      split
      · rfl
      · exact (BitVec.or_assoc ..).trans (congrArg (s.errflags ||| ·) BitVec.or_self)
  · have hroom : bytes.length < Config.block.elemMax := Nat.lt_of_not_le hfull
    have hshort : (bytes ++ [x]).length ≤ Config.block.elemMax := by
      rw [List.length_append, List.length_singleton]; omega
    obtain ⟨u, hu, helem, -, hslots, hregs, -⟩ := fits (by omega)
    refine ⟨u, hu, ?_, hslots.trans h.slots, hregs.mode.trans h.mode, hregs.numBits.trans h.numBits,
      hregs.k.trans h.k, ?_⟩
    · rw [helem, h.elem, List.take_of_length_le hroom.le, List.take_of_length_le hshort]
    · rw [hregs.errflags, h.errflags, if_pos hroom.le, if_pos hshort]

/-- The expansion of `ELOADB` completes from every state (R81). -/
theorem loaded_loadBytes (s : State) (bytes : List Byte) : ∃ t, runList (loadBytes bytes) s = .next t ∧ Loaded s bytes t := by
  induction bytes using List.reverseRecOn with
  | nil =>
    obtain ⟨t, ht, hload⟩ := loaded_eclr s
    exact ⟨t, by simp only [loadBytes, List.map_nil, runList, ht], hload⟩
  | append_singleton bytes x ih =>
    obtain ⟨t, ht, hload⟩ := ih
    obtain ⟨u, hu, hload'⟩ := loaded_epush hload x
    refine ⟨u, ?_, hload'⟩
    rw [loadBytes, List.map_append, ← List.cons_append, ← loadBytes, runList_append _ ht]
    simp only [List.map_cons, List.map_nil, runList, hu]

/-- Settles O41: the two clauses on `ERRFLAGS` are the two cases of `Loaded`. -/
theorem loadingAnElement : Obligations.LoadingAnElement := by
  intro s bytes
  obtain ⟨t, ht, h⟩ := loaded_loadBytes s bytes
  refine ⟨t, ht, h.elem, h.slots, h.mode, h.numBits, h.k, fun hfit => ?_, fun hlong => ?_⟩
  · rw [h.errflags, if_pos hfit]
  · rw [h.errflags, if_neg (Nat.not_le.mpr hlong)]

/-- Settles O29: every bit of the new filter is 0 and `K` is not 0, so the AND is 0 at hash index 0 already. -/
theorem freshFilterAnswersZero : Obligations.FreshFilterAnswersZero := by
  intro s m k e hk hkmax hm hmmax
  refine ⟨_, exec_bfnew s hk hkmax hm hmmax, answers_bfqry (v := 0#1) rfl (iff_of_false (by decide) fun hall => ?_)⟩
  have hbit := hall 0 (one_le_toNat_iff.mpr hk)
  exact absurd ((getBit_zeroed _).symm.trans hbit) (by decide)

end Sys2Proof.Machine
end

section
/-! PROOFS. The golden values of the sizing formulas (R134; O55), and what the host issues (R133, R224, R225; O57). -/

namespace Sys2Proof.Sizing
open Sys2Proof.Machine Sys2Proof.Safety

/-- `4.79 < ln 10 / (ln 2)^2 < 4.793`, close enough to round up both golden values of `m`. -/
theorem log_ten_bounds : 4.79 * Real.log 2 ^ 2 < Real.log 10 ∧ Real.log 10 < 4.793 * Real.log 2 ^ 2 := by
  have h2 := Real.log_two_gt_d9
  have h2' := Real.log_two_lt_d9
  have h5 := Real.log_five_gt_d9
  have h5' := Real.log_five_lt_d9
  rw [Real.log_ten_eq]
  constructor <;> nlinarith

/-- For the error rate 0.1 the real value of R130 is `capacity * ln 10 / (ln 2)^2`, which rounds up to `m` when these bounds
do. -/
theorem computeM_tenth_eq {capacity m : ℕ} (hm : m ≠ 0) (hlow : ((m - 1 : ℕ) : ℝ) ≤ capacity * 4.79)
    (hhigh : capacity * 4.793 ≤ (m : ℝ)) (hcap : 0 < capacity) : computeM capacity (1 / 10) = m := by
  obtain ⟨hlog, hlog'⟩ := log_ten_bounds
  have hsq : 0 < Real.log 2 ^ 2 := pow_pos (Real.log_pos one_lt_two) 2
  have hn : (0 : ℝ) < capacity := Nat.cast_pos.mpr hcap
  rw [computeM, one_div, Real.log_inv, mul_neg, neg_neg, Nat.ceil_eq_iff hm, lt_div_iff₀ hsq, div_le_iff₀ hsq]
  constructor
  · calc ((m - 1 : ℕ) : ℝ) * Real.log 2 ^ 2
        ≤ capacity * 4.79 * Real.log 2 ^ 2 := mul_le_mul_of_nonneg_right hlow hsq.le
      _ = capacity * (4.79 * Real.log 2 ^ 2) := mul_assoc ..
      _ < capacity * Real.log 10 := mul_lt_mul_of_pos_left hlog hn
  · calc capacity * Real.log 10
        ≤ capacity * (4.793 * Real.log 2 ^ 2) := mul_le_mul_of_nonneg_left hlog'.le hn.le
      _ = capacity * 4.793 * Real.log 2 ^ 2 := (mul_assoc ..).symm
      _ ≤ m * Real.log 2 ^ 2 := mul_le_mul_of_nonneg_right hhigh hsq.le

/-- With `0.69 < ln 2 < 0.7` the real value of R131 rounds up to `k`. -/
theorem computeK_eq {capacity m k : ℕ} (hk : k ≠ 0) (hlow : ((k - 1 : ℕ) : ℝ) < (m : ℝ) / capacity * 0.69)
    (hhigh : (m : ℝ) / capacity * 0.7 ≤ k) : computeK capacity m = k := by
  have hlog : 0.69 ≤ Real.log 2 := (by norm_num : (0.69 : ℝ) ≤ 0.6931471803).trans Real.log_two_gt_d9.le
  have hlog' : Real.log 2 ≤ 0.7 := Real.log_two_lt_d9.le.trans (by norm_num)
  have hq : (0 : ℝ) ≤ (m : ℝ) / capacity := by positivity
  rw [computeK, Nat.ceil_eq_iff hk]
  exact ⟨hlow.trans_le (mul_le_mul_of_nonneg_left hlog hq), (mul_le_mul_of_nonneg_left hlog' hq).trans hhigh⟩

/-- Settles O55: with the bounds on `ln 2` and `ln 10`, each golden value is a comparison of numerals. -/
theorem sizingGoldenValues : Obligations.SizingGoldenValues := by
  refine ⟨computeM_tenth_eq ?_ ?_ ?_ ?_, computeK_eq ?_ ?_ ?_, computeM_tenth_eq ?_ ?_ ?_ ?_, computeK_eq ?_ ?_ ?_⟩
  all_goals norm_num

/-- The host issues a command only for valid parameters, and then the one with the `m` and `k` of the formulas, which fit
their fields (R225). -/
theorem hostNew_eq_issue {capacity : ℤ} {errorRate : ℝ} {i : Instr} (h : hostNew capacity errorRate = .issue i) :
    ValidParameters capacity errorRate ∧ ∃ m k, i = .bfnew m k ∧
      m.toNat = computeM capacity.toNat errorRate ∧ k.toNat = computeK capacity.toNat m.toNat := by
  unfold hostNew at h
  split at h
  case isFalse => cases h
  case isTrue hv =>
    dsimp only at h
    split at h
    case isFalse => cases h
    case isTrue hfit =>
      cases h
      refine ⟨hv, _, _, rfl, Nat.mod_eq_of_lt hfit.1, ?_⟩
      rw [BitVec.toNat_ofNat, BitVec.toNat_ofNat, Nat.mod_eq_of_lt hfit.1, Nat.mod_eq_of_lt hfit.2]

/-- Settles O57: `m` and `k` of valid parameters are at least 1 (R132), so `BFNEW` fails only where they exceed the block's
bounds. -/
theorem hostConstructionIsSound : Obligations.HostConstructionIsSound := by
  refine ⟨fun capacity errorRate hinvalid => if_neg hinvalid, fun capacity errorRate i h => ?_⟩
  obtain ⟨hvalid, m, k, rfl, hm, hk⟩ := hostNew_eq_issue h
  refine ⟨hvalid, m, k, rfl, hm, hk, fun s hmax hkmax => ?_⟩
  obtain ⟨hcap, hpos, hlt⟩ := hvalid
  obtain ⟨hm1, -, -, hk1, -, -⟩ := sizingRoundsUp capacity.toNat errorRate (by omega) hpos hlt
  have hm0 : m ≠ 0 := one_le_toNat_iff.mp (by rw [hm]; exact hm1)
  have hk0 : k ≠ 0 := one_le_toNat_iff.mp (by rw [hk, hm]; exact hk1)
  exact ⟨_, exec_bfnew s hk0 hkmax hm0 hmax, rfl, rfl, rfl, rfl⟩

end Sys2Proof.Sizing
end
